-- ==== Sys2Proof/Word.lean ====
section
/-! DEFINITION. The plain data widths of the block (spec rules R7, R8, R51, R52). -/

namespace Sys2Proof

/-- A device register address or a register byte: 8 bits (R30). -/
abbrev Byte := BitVec 8

/-- A command word or a count operand: 16 bits (R51, R52). -/
abbrev Word := BitVec 16

/-- The opaque error word BERR the transport answers with (R8). The block never computes with it.
DESIGN CHOICE (notes/assumptions/5.md): a natural number stands for any value of any type. -/
abbrev BusErr := Nat

/-- The opaque device address DEV_ADDR, passed through unchanged (R8, R31).
DESIGN CHOICE (notes/assumptions/5.md): a natural number stands for an address of any width. -/
abbrev DevAddr := Nat

end Sys2Proof
end

