-- ==== Sys2Proof/Syntax.lean ====
section
/-! DEFINITION. The commands as syntax: one constructor per row of spec/opcode_table.json (R59), with the command-word
fields the row reads and no others (R51, R60). Operand-record fields (R52) are not part of the word: State holds them. -/

namespace Sys2Proof

/-- The selector `which` (R55): the on pair or the off pair. -/
inductive Which where
  | on
  | off
  deriving DecidableEq, Repr

/-- The selector `byte` (R55): the low or the high byte of a pair. -/
inductive Half where
  | low
  | high
  deriving DecidableEq, Repr

/-- The 15 commands of R59. `ch` is the raw channel code of R50, 0..31 in a well-formed command (16 is All; 17..31
name no channel and raise INVALID_CHANNEL when the command runs). -/
inductive Instr where
  /-- R70, op 0x0. -/
  | chint (sgn : Bool)
  /-- R76, op 0x1. -/
  | addr (ch : Nat) (which : Which) (half : Half)
  /-- R83, op 0x2. -/
  | enc (full : Bool)
  /-- R84, op 0x3. -/
  | dec
  /-- R96, op 0x4. -/
  | seton (ch : Nat)
  /-- R97, op 0x5. -/
  | setoff (ch : Nat)
  /-- R98, op 0x6. -/
  | setfon (ch : Nat)
  /-- R99, op 0x7. -/
  | setfoff (ch : Nat)
  /-- R100, op 0x8. -/
  | geton (ch : Nat)
  /-- R101, op 0x9. -/
  | getoff (ch : Nat)
  /-- R102, op 0xA. -/
  | getfon (ch : Nat)
  /-- R103, op 0xB. -/
  | getfoff (ch : Nat)
  /-- R104, op 0xC. -/
  | setonoff (ch : Nat)
  /-- R110, op 0xD. -/
  | setall
  /-- R111, op 0xE. -/
  | getall
  deriving DecidableEq, Repr

end Sys2Proof
end

