-- ==== Sys2Proof/WellFormed.lean ====
section
/-! DEFINITION. Which terms of Instr a command word can stand for: the channel code fits its 5-bit field (R50, R51).
Every other field is of a type that holds exactly the field's values. -/

namespace Sys2Proof

/-- The channel code fits `cw[8:4]` (R51). -/
abbrev codeFits (ch : Nat) : Bool := decide (ch < 32)

/-- A command the 16-bit word can encode. -/
def Instr.wellFormed : Instr → Bool
  | .chint _ => true
  | .addr ch _ _ => codeFits ch
  | .enc _ => true
  | .dec => true
  | .seton ch => codeFits ch
  | .setoff ch => codeFits ch
  | .setfon ch => codeFits ch
  | .setfoff ch => codeFits ch
  | .geton ch => codeFits ch
  | .getoff ch => codeFits ch
  | .getfon ch => codeFits ch
  | .getfoff ch => codeFits ch
  | .setonoff ch => codeFits ch
  | .setall => true
  | .getall => true

end Sys2Proof
end

