-- ==== Sys2Proof/Decode.lean ====
section
/-! DEFINITION. The command word's decoder, total on all 65536 words (R51, R59, R60), and the encoder (R62).
The command word is presented as one 16-bit value and has no byte order (R33, notes/assumptions/12.md). -/

namespace Sys2Proof

/-- Why a word is no command (R60). Both reasons raise ILLEGAL_COMMAND. -/
inductive Illegal where
  /-- `rsv = cw[15:13]` is not 0. -/
  | reservedBits
  /-- `op = cw[3:0]` is 0xF. -/
  | reservedOpcode
  deriving DecidableEq, Repr

/-- `op = cw[3:0]` (R51). -/
def opField (w : Word) : BitVec 4 := w.extractLsb 3 0
/-- `ch = cw[8:4]` (R51). -/
def chField (w : Word) : BitVec 5 := w.extractLsb 8 4
/-- `which = cw[9]`, 0 on and 1 off (R51, R55). -/
def whichField (w : Word) : Which := if w.getLsbD 9 then .off else .on
/-- `byte = cw[10]`, 0 low and 1 high (R51, R55). -/
def halfField (w : Word) : Half := if w.getLsbD 10 then .high else .low
/-- `full = cw[11]` (R51). -/
def fullField (w : Word) : Bool := w.getLsbD 11
/-- `sgn = cw[12]` (R51). -/
def sgnField (w : Word) : Bool := w.getLsbD 12
/-- `rsv = cw[15:13]` (R51). -/
def rsvField (w : Word) : BitVec 3 := w.extractLsb 15 13

/-- The opcode map (R59), once the reserved bits are known to be 0. A field the opcode does not read is dropped (R60). -/
def decodeOp (w : Word) : Except Illegal Instr :=
  let ch := (chField w).toNat
  match (opField w).toNat with
  | 0 => .ok (.chint (sgnField w))
  | 1 => .ok (.addr ch (whichField w) (halfField w))
  | 2 => .ok (.enc (fullField w))
  | 3 => .ok .dec
  | 4 => .ok (.seton ch)
  | 5 => .ok (.setoff ch)
  | 6 => .ok (.setfon ch)
  | 7 => .ok (.setfoff ch)
  | 8 => .ok (.geton ch)
  | 9 => .ok (.getoff ch)
  | 10 => .ok (.getfon ch)
  | 11 => .ok (.getfoff ch)
  | 12 => .ok (.setonoff ch)
  | 13 => .ok .setall
  | 14 => .ok .getall
  | _ => .error .reservedOpcode

/-- The decoder: every word is one of the 15 commands or illegal, by name (R59, R60). -/
def decode (w : Word) : Except Illegal Instr :=
  if rsvField w = 0#3 then decodeOp w else .error .reservedBits

/-- The bit of a `which` selector (R55). -/
def whichBit : Which → Bool
  | .on => false
  | .off => true

/-- The bit of a `byte` selector (R55). -/
def halfBit : Half → Bool
  | .low => false
  | .high => true

/-- `cw = op | ch<<4 | which<<9 | byte<<10 | full<<11 | sgn<<12`, with `rsv` 0 (R51, R62). -/
def assemble (op : BitVec 4) (ch : BitVec 5) (which half full sgn : Bool) : Word :=
  op.setWidth 16 ||| ch.setWidth 16 <<< 4 ||| (BitVec.ofBool which).setWidth 16 <<< 9 |||
    (BitVec.ofBool half).setWidth 16 <<< 10 ||| (BitVec.ofBool full).setWidth 16 <<< 11 |||
    (BitVec.ofBool sgn).setWidth 16 <<< 12

/-- The word of a channel command: `op | ch<<4`, other fields 0 (R62). -/
def assembleCh (op : BitVec 4) (ch : Nat) : Word := assemble op (BitVec.ofNat 5 ch) false false false false

/-- The encoder: the word of a well-formed command, every field it does not read 0 (R62). -/
def encode : Instr → Word
  | .chint sgn => assemble 0x0#4 0#5 false false false sgn
  | .addr ch which half => assemble 0x1#4 (BitVec.ofNat 5 ch) (whichBit which) (halfBit half) false false
  | .enc full => assemble 0x2#4 0#5 false false full false
  | .dec => assemble 0x3#4 0#5 false false false false
  | .seton ch => assembleCh 0x4#4 ch
  | .setoff ch => assembleCh 0x5#4 ch
  | .setfon ch => assembleCh 0x6#4 ch
  | .setfoff ch => assembleCh 0x7#4 ch
  | .geton ch => assembleCh 0x8#4 ch
  | .getoff ch => assembleCh 0x9#4 ch
  | .getfon ch => assembleCh 0xA#4 ch
  | .getfoff ch => assembleCh 0xB#4 ch
  | .setonoff ch => assembleCh 0xC#4 ch
  | .setall => assemble 0xD#4 0#5 false false false false
  | .getall => assemble 0xE#4 0#5 false false false false

/-- An instruction's bits as spec/opcode_table.json numbers them: the low `nbits` bits of `w`, every bit above them 0. -/
def tableBits (nbits w : Nat) : Nat := w % 2 ^ nbits

/-- The command this decoder reads from table bits. Every command is one 16-bit word (R61), so bits above 15 fit no command. -/
def decodeTableWord (nbits w : Nat) : Option Instr :=
  if tableBits nbits w < 65536 then (decode (BitVec.ofNat 16 (tableBits nbits w))).toOption else none

end Sys2Proof
end

