-- ==== Sys2Proof/Config.lean ====
section
/-! DEFINITION. What is fixed for one block: the parameters of R7 and R8, their well-formedness (R9), and the
free value behind a transport answer that nothing has scripted (R34, decision D18). -/

namespace Sys2Proof

/-- NCH, the physical channels C0..C15 (R7). -/
@[simp] abbrev numChannels : Nat := 16
/-- STRIDE, the register addresses of one channel (R7). -/
@[simp] abbrev stride : Nat := 4
/-- The largest count of CW = 12 bits (R7, R80). -/
@[simp] abbrev maxCount : Nat := 4095
/-- FULL_BIT, the bit of a high byte that holds the full flag (R7, R56). -/
@[simp] abbrev fullBit : Nat := 4
/-- AI_BIT, the autoincrement bit of the device's mode-1 register (R7). -/
@[simp] abbrev aiBit : Nat := 5
/-- BULK_LEN, the payload bytes of a bulk transfer (R7). -/
@[simp] abbrev bulkLen : Nat := 64

/-- The parameters the source names and gives no value for (R8). They are an argument of the model: State carries
them and no step changes them, so a claim about every state is a claim about every parameter value. -/
structure Config where
  /-- MODE1_ADDR, the address of the device's mode-1 register. -/
  mode1Addr : Byte
  /-- CH_BASE, the address of channel 0's on-low register. -/
  chBase : Byte
  /-- ALL_BASE, the address of the broadcast block's on-low register. -/
  allBase : Byte
  /-- DEV_ADDR, the device address of every transaction. -/
  devAddr : DevAddr
  deriving DecidableEq, Repr

/-- R9: (a) the channel blocks fit in 8 bits, (b) so does the broadcast block, (c) the broadcast block meets neither
the channel blocks nor mode-1, (d) mode-1 lies outside the channel blocks. -/
abbrev Config.WF (c : Config) : Prop :=
  c.chBase.toNat + 4 * 15 + 3 ≤ 255 ∧
  c.allBase.toNat + 3 ≤ 255 ∧
  (c.allBase.toNat + 3 < c.chBase.toNat ∨ c.chBase.toNat + 63 < c.allBase.toNat) ∧
  (c.mode1Addr.toNat < c.allBase.toNat ∨ c.allBase.toNat + 3 < c.mode1Addr.toNat) ∧
  (c.mode1Addr.toNat < c.chBase.toNat ∨ c.chBase.toNat + 63 < c.mode1Addr.toNat)

/-- The defaults of R8. PRESUMED (notes/assumptions/4.md): the spec marks the three register addresses as general
knowledge (GK1). DESIGN CHOICE (notes/assumptions/5.md): the device address has no default in the spec; 0 is named here. -/
def Config.default : Config :=
  { mode1Addr := 0x00#8, chBase := 0x06#8, allBase := 0xFA#8, devAddr := 0 }

/-- What the environment chooses for one transaction (R34): success, with the bytes a read may take, or an error word.
DESIGN CHOICE (notes/assumptions/3.md): a success always carries 64 bytes, the longest read of R35; a read of n bytes takes
the first n of them and a write takes none, so every answer has the right shape for every request. -/
inductive Answer where
  | ok (data : Vector Byte 64)
  | err (e : BusErr)
  deriving DecidableEq, Repr, Inhabited

/-- The free value: the answer to the n-th transaction that no scripted answer is left for (R34, U5, U6, U8).
It has no body, so no proof can learn which answer it is (notes/assumptions/2.md). -/
opaque Config.freeAnswer : Nat → Answer

end Sys2Proof
end

