-- ==== Sys2Proof/Machine/State.lean ====
section
/-! DEFINITION. The state of the block and of what stands at its four ports (R20..R28, R34, R52, R53), as plain data, and
the machine right after reset. The block itself holds ONE bit, `ai`; the other fields are the parameters (R8), the values
at the ports during a command (R26), the observable log (R34), and the inputs the outside world will give. -/

namespace Sys2Proof.Machine

/-- The status codes of R120. -/
inductive Status where
  | ok
  | invalidChannel
  | invalidCount
  | busError
  | illegalCommand
  deriving DecidableEq, Repr

/-- The operand record `opd` presented with a command word (R52). -/
structure Operands where
  a : Word
  b : Word
  l : Byte
  h : Byte
  n : BitVec 32
  von : Vector Word 16
  voff : Vector Word 16
  deriving DecidableEq, Repr

/-- The all-zero operand record: what a test, a word placed by the host and the fields that an assembler line does not name
present. No port holds it between commands (R26). -/
def Operands.zero : Operands :=
  { a := 0#16, b := 0#16, l := 0#8, h := 0#8, n := 0#32, von := Vector.replicate 16 0#16, voff := Vector.replicate 16 0#16 }

/-- The result record `res` (R53). A field the command does not produce is `none`: it holds no value (D27). -/
structure Result where
  status : Status
  berr : Option BusErr := none
  rch : Option (BitVec 5) := none
  raddr : Option Byte := none
  rlo : Option Byte := none
  rhi : Option Byte := none
  rcount : Option Word := none
  rfull : Option Bool := none
  ron : Option (Vector Word 16) := none
  roff : Option (Vector Word 16) := none
  deriving DecidableEq, Repr

/-- One presentation on the command and operand ports (R26): the command word and its operand record. -/
structure Command where
  cw : Word
  opd : Operands
  deriving DecidableEq, Repr

/-- What the outside world does to the block: it presents a command (R26), or it resets the block (R140). -/
inductive HostInput where
  | command (c : Command)
  | reset
  deriving DecidableEq, Repr

/-- A request on the transport port (R34). -/
inductive Request where
  | write (dev : DevAddr) (bytes : List Byte)
  | writeRead (dev : DevAddr) (wbytes : List Byte) (n : Nat)
  deriving DecidableEq, Repr

/-- A response on the transport port (R34). -/
inductive Response where
  | ok
  | okData (data : List Byte)
  | err (e : BusErr)
  deriving DecidableEq, Repr

/-- One entry of the transaction log: a request and the response it got (R34).
DESIGN CHOICE (notes/assumptions/10.md): the response is kept beside the request, as the spec's vectors write it. -/
structure Transaction where
  req : Request
  resp : Response
  deriving DecidableEq, Repr

/-- The whole machine as plain data. -/
structure State where
  /-- The parameters of R8. No step changes them. -/
  cfg : Config
  /-- `st.ai`, the block's one state bit (R20): false is Unset, true is Set. -/
  ai : Bool
  /-- The operand port: the record presented with the command that runs; `none` between commands, when the port holds no
  value (R26, R28, R52). -/
  opd : Option Operands
  /-- The result port: what the last step delivered; `none` when no result is valid (R26, R28, R53). -/
  res : Option Result
  /-- The transaction log, the block's observable output, oldest first (R34). -/
  log : List Transaction
  /-- What the host will do, the next first (R22: the host decides the order of commands).
  The MODEL's own field (notes/assumptions/1.md). -/
  inputs : List HostInput
  /-- What the transport will answer, the next first (R34). The MODEL's own field (notes/assumptions/2.md). -/
  answers : List Answer
  /-- How many free answers have been drawn. The MODEL's own field (notes/assumptions/2.md). -/
  draws : Nat
  deriving DecidableEq, Repr

/-- The reasons a step stops with a fault: NONE. Every error of the block is a status delivered by a completed command
(R120, R121), so no instruction and no step raises a fault (safe: nothing is hidden; notes/assumptions/13.md). -/
inductive Fault where
  deriving DecidableEq, Repr

/-- The reasons a step is refused. -/
inductive Refusal where
  /-- An instruction that has no meaning yet, by its mnemonic; raised by no arm of this model (safe). -/
  | notModelled (mnemonic : String)
  /-- The parameters break R9: "A model refuses an ill-formed configuration". Raised by every step of such a state,
  before anything is accepted (safe: nothing is claimed of such a block; notes/assumptions/6.md). -/
  | illFormedConfig
  deriving DecidableEq, Repr

/-- The block right after reset, for any parameters (R28, R140): the gate Unset, no command pending, no result valid, no
transaction issued. -/
def State.resetWith (c : Config) : State :=
  { cfg := c, ai := false, opd := none, res := none, log := [], inputs := [], answers := [], draws := 0 }

/-- The machine right after reset, with the default parameters of R8 (notes/assumptions/4.md). -/
def State.reset : State := State.resetWith Config.default

end Sys2Proof.Machine
end

