-- ==== Sys2Proof/Machine/Ops.lean ====
section
/-! DEFINITION. The shared operations: the transport port (R34), delivering a result and raising an error (R121), the
autoincrement gate (R90), the bus skeleton (R95), block reset (R140) and accepting what stands at the ports (R26). -/

namespace Sys2Proof.Machine

/-! ### The result port -/

/-- The 3-bit code of a status in `res.status` (R120); 5..7 are never produced. -/
def statusCode : Status → BitVec 3
  | .ok => 0#3
  | .invalidChannel => 1#3
  | .invalidCount => 2#3
  | .busError => 3#3
  | .illegalCommand => 4#3

/-- Deliver a result: it stands at the result port, the command is over, and the operand port holds no value again (R26). -/
def State.deliver (r : Result) (s : State) : State := { s with res := some r, opd := none }

/-- `raise E` for the errors that carry no value (R121): the command ends with status E and no other result field;
nothing else changes but that the operand port is free again. There is no saved state, no vector and no return from an error (R125). -/
def raise (e : Status) (s : State) : State := s.deliver { status := e }

/-- `raise BUS_ERROR(e)` (R120, R121): as `raise`, with the transport's error word verbatim. -/
def raiseBus (e : BusErr) (s : State) : State := s.deliver { status := .busError, berr := some e }

/-! ### The operand port -/

/-- The record a command reads: what stands at the operand port (R26, R52). A step runs a command only with its record there.
DESIGN CHOICE (notes/assumptions/8.md): a meaning asked of a state whose port is empty, which no step does, reads zeros. -/
def State.operands (s : State) : Operands := s.opd.getD Operands.zero

/-! ### The transport port -/

/-- The answer the next transaction gets: the next scripted one, or a free value when none is left (R34, D18). -/
def State.peek (s : State) : Answer :=
  match s.answers with
  | [] => Config.freeAnswer s.draws
  | a :: _ => a

/-- Use up the answer `peek` shows. -/
def State.advance (s : State) : State :=
  match s.answers with
  | [] => { s with draws := s.draws + 1 }
  | _ :: rest => { s with answers := rest }

/-- The response an answer gives to a request (R34): exactly n bytes to a read of n, none to a write. -/
def respond (a : Answer) (r : Request) : Response :=
  match a with
  | .err e => .err e
  | .ok d =>
    match r with
    | .write _ _ => .ok
    | .writeRead _ _ n => .okData (d.toList.take n)

/-- Submit a request: it is appended to the log with the response it gets, and the answer is used up (R34). -/
def State.submit (r : Request) (s : State) : State :=
  { s.advance with log := s.log ++ [{ req := r, resp := respond s.peek r }] }

/-- One transaction, submitted and answered (R34, R36): the data of a success or the error word, and the state after it. -/
def transact (r : Request) (s : State) : Except BusErr (Vector Byte 64) × State :=
  match s.peek with
  | .err e => (.error e, s.submit r)
  | .ok d => (.ok d, s.submit r)

/-- `BusWrite(bytes)` (R11, R34), to the one device address (R31). -/
def busWrite (bytes : List Byte) (s : State) : Except BusErr (Vector Byte 64) × State :=
  transact (.write s.cfg.devAddr bytes) s

/-- `BusWriteRead(wbytes, n)` (R11, R34), to the one device address (R31). -/
def busWriteRead (wbytes : List Byte) (n : Nat) (s : State) : Except BusErr (Vector Byte 64) × State :=
  transact (.writeRead s.cfg.devAddr wbytes n) s

/-! ### The autoincrement gate and the bus skeleton -/

/-- `st.ai <- 1` (R11, R20). -/
def State.setGate (s : State) : State := { s with ai := true }

/-- The mode-1 value of the gate write: bit 5 and no other (R91). -/
def mode1Value : Byte := 1#8 <<< aiBit

/-- EnsureGate (R90): nothing when the gate is Set; else the mode-1 write, and the gate is Set only if it succeeds. -/
def ensureGate (s : State) : Except BusErr Unit × State :=
  if s.ai then (.ok (), s)
  else
    match busWrite [s.cfg.mode1Addr, mode1Value] s with
    | (.error e, t) => (.error e, t)
    | (.ok _, t) => (.ok (), t.setGate)

/-- Steps 4 to 6 of the bus skeleton (R95): the gate, exactly one payload transaction, and the result or BUS_ERROR. -/
def busCommand (payload : State → Except BusErr (Vector Byte 64) × State) (result : Vector Byte 64 → Result) (s : State) : State :=
  match ensureGate s with
  | (.error e, t) => raiseBus e t
  | (.ok _, t) =>
    match payload t with
    | (.error e, u) => raiseBus e u
    | (.ok d, u) => u.deliver (result d)

/-- Program registers: one payload write, and a result with no field but the status (R95, R96). -/
def programCommand (bytes : List Byte) (s : State) : State :=
  busCommand (busWrite bytes) (fun _ => { status := .ok }) s

/-- Read registers back: one write of the address followed by a read of n bytes (R95, R100). -/
def readCommand (a : Byte) (n : Nat) (result : Vector Byte 64 → Result) (s : State) : State :=
  busCommand (busWriteRead [a] n) result s

/-! ### What stands at the ports -/

/-- Reset of the block (R140): every piece of the block is as `State.resetWith` leaves it. What is outside the block stays:
the parameters, the log already observed, and what the host and the transport will do. No transaction is issued. -/
def blockReset (s : State) : State :=
  { State.resetWith s.cfg with log := s.log, inputs := s.inputs, answers := s.answers, draws := s.draws }

/-- What a step has to do. -/
inductive Accepted where
  /-- The parameters are ill formed. -/
  | refuse (r : Refusal)
  /-- The step is over: nothing was presented, the block was reset, or the word was illegal. -/
  | done (s : State)
  /-- A command was accepted and is to run. -/
  | run (i : Instr) (s : State)

/-- The block takes what the host does next (R26): an ill-formed configuration is refused (R9); with nothing presented the
block waits, and no port holds a value (notes/assumptions/7.md); a reset resets it (R140); a command word is decoded first of
all, and an illegal one raises ILLEGAL_COMMAND with no other effect (R60, R95 step 1). The result port is empty while a
command runs. -/
def accept (s : State) : Accepted :=
  if s.cfg.WF then
    match s.inputs with
    | [] => .done { s with opd := none, res := none }
    | .reset :: rest => .done (blockReset { s with inputs := rest })
    | .command c :: rest =>
      match decode c.cw with
      | .error _ => .done (raise .illegalCommand { s with inputs := rest, opd := some c.opd, res := none })
      | .ok i => .run i { s with inputs := rest, opd := some c.opd, res := none }
  else .refuse .illFormedConfig

/-- The inputs with word `w` as the next command presented: the next command's word is replaced and its operand record kept;
where no command stands next, one with the zero record is put in front. -/
def presentWord (w : Word) : List HostInput → List HostInput
  | .command c :: rest => .command { c with cw := w } :: rest
  | rest => .command { cw := w, opd := Operands.zero } :: rest

end Sys2Proof.Machine
end

