-- ==== Sys2Proof/Machine/Operands.lean ====
section
/-! DEFINITION. Operand forms: the integer operand of CHINT (R54, R70), the channel check (R71), the count check (R80) and
the channel-to-register-address multiplexer (R75). -/

namespace Sys2Proof.Machine

/-- The integer CHINT reads (R54): `uint(N)` or `sint(N)`. -/
def intOperand (sgn : Bool) (n : BitVec 32) : Int := if sgn then n.toInt else n.toNat

/-- CheckCh (R71): codes 17..31 raise INVALID_CHANNEL; otherwise the command goes on to `k`. -/
def checkCh (ch : Nat) (s : State) (k : State) : State :=
  if ch > 16 then raise .invalidChannel s else k

/-- The count is outside 0..4095 (R80). -/
def outOfRange (c : Word) : Bool := decide (c.toNat > maxCount)

/-- CheckCount on every one of `cs` (R80): one above 4095 raises INVALID_COUNT; otherwise the command goes on to `k`.
Which one is at fault cannot be seen (R123). -/
def checkCounts (cs : List Word) (s : State) (k : State) : State :=
  if cs.any outOfRange then raise .invalidCount s else k

/-- The value of a `which` selector in an address: 0 on, 1 off (R55). -/
def whichOffset : Which → Nat
  | .on => 0
  | .off => 1

/-- The value of a `byte` selector in an address: 0 low, 1 high (R55). -/
def halfOffset : Half → Nat
  | .low => 0
  | .high => 1

/-- The base address of a channel's block (R75): the broadcast block for code 16, else CH_BASE + 4*ch. -/
def blockBase (c : Config) (ch : Nat) : Nat :=
  if ch = 16 then c.allBase.toNat else c.chBase.toNat + stride * ch

/-- AddrOf (R75): the 8-bit register address of a channel, an on/off and a low/high selection. -/
def addrOf (c : Config) (ch : Nat) (which : Which) (half : Half) : Byte :=
  BitVec.ofNat 8 (blockBase c ch + 2 * whichOffset which + halfOffset half)

end Sys2Proof.Machine
end

