-- ==== Sys2Proof/Machine/Flags.lean ====
section
/-! DEFINITION. The block has no condition codes (R23); its one flag is the full-on/full-off DATA bit of a high byte. Here
are the packer and the unpacker that write and read it (R56, R57, R81, R82), for one pair and for the bulk payload (R58). -/

namespace Sys2Proof.Machine

/-- The high byte of a pair with the full flag set: bit 4 and no other (R56, R81). -/
def fullByte : Byte := 1#8 <<< fullBit

/-- Enc (R81): the low and the high byte of a pair. The flag overrides the count. -/
def encPair (c : Word) (full : Bool) : Byte × Byte :=
  if full then (0x00#8, fullByte)
  else ((c &&& 0xFF#16).setWidth 8, ((c >>> 8) &&& 0x0F#16).setWidth 8)

/-- Dec (R82): the count, read whatever the flag is, and the flag; bits 7:5 of the high byte are ignored. -/
def decPair (l h : Byte) : Word × Bool :=
  (l.setWidth 16 ||| ((h &&& 0x0F#8).setWidth 16 <<< 8), h.getLsbD fullBit)

/-- The two bytes of a pair in address order, low byte first (R32). -/
def pairBytes (c : Word) (full : Bool) : List Byte := [(encPair c full).1, (encPair c full).2]

/-- The 4-byte block of one channel with both flags clear: on_lo, on_hi, off_lo, off_hi (R58). -/
def blockBytes (con coff : Word) : List Byte := pairBytes con false ++ pairBytes coff false

/-- The 64-byte bulk payload: the 16 channel blocks in channel order (R58, R110). -/
def bulkBytes (von voff : Vector Word 16) : List Byte := (List.zipWith blockBytes von.toList voff.toList).flatten

/-- Channel k's count in the pair at offset `o` (0 on, 2 off) of its block in 64 read bytes; the flag is dropped (R111). -/
def bulkCount (d : Vector Byte 64) (k : Fin 16) (o : Fin 3) : Word :=
  (decPair d[4 * k.val + o.val] d[4 * k.val + o.val + 1]).1

/-- The on counts of 64 read bytes, in channel order (R111). -/
def bulkOn (d : Vector Byte 64) : Vector Word 16 := Vector.ofFn fun k => bulkCount d k 0

/-- The off counts of 64 read bytes, in channel order (R111). -/
def bulkOff (d : Vector Byte 64) : Vector Word 16 := Vector.ofFn fun k => bulkCount d k 2

end Sys2Proof.Machine
end

