-- ==== Sys2Proof/Machine/AddressMux.lean ====
section
/-! DEFINITION. ADDR (spec file 41_address_mux.md). -/

namespace Sys2Proof.Machine

/-- ADDR (R76): the register address of the selection; no access is made. -/
def execAddr (ch : Nat) (which : Which) (half : Half) (s : State) : Host.Outcome State Fault Refusal :=
  .next (checkCh ch s (s.deliver { status := .ok, raddr := some (addrOf s.cfg ch which half) }))

end Sys2Proof.Machine
end

