-- ==== Sys2Proof/Machine/BulkOps.lean ====
section
/-! DEFINITION. The bulk commands (spec file 45_bulk_ops.md). Both start at channel 0's on-low register (R112). -/

namespace Sys2Proof.Machine

/-- SETALL (R110): program all 32 counts in one 65-byte write; all 32 are checked before anything else. -/
def execSetall (s : State) : Host.Outcome State Fault Refusal :=
  .next (checkCounts (s.operands.von.toList ++ s.operands.voff.toList) s
    (programCommand (addrOf s.cfg 0 .on .low :: bulkBytes s.operands.von s.operands.voff) s))

/-- The result of GETALL (R111): the 32 raw counts; the flags are discarded. -/
def bulkResult (d : Vector Byte 64) : Result := { status := .ok, ron := some (bulkOn d), roff := some (bulkOff d) }

/-- GETALL (R111): read back all 32 counts in one 64-byte read. -/
def execGetall (s : State) : Host.Outcome State Fault Refusal :=
  .next (readCommand (addrOf s.cfg 0 .on .low) bulkLen bulkResult s)

end Sys2Proof.Machine
end

