-- ==== Sys2Proof/Machine/ChannelId.lean ====
section
/-! DEFINITION. CHINT (spec file 40_channel_id.md). -/

namespace Sys2Proof.Machine

/-- CHINT (R70): the channel code of an integer 0..15; any other integer raises INVALID_CHANNEL. No transaction; the gate is
neither read nor written. -/
def execChint (sgn : Bool) (s : State) : Host.Outcome State Fault Refusal :=
  .next (if 0 ≤ intOperand sgn s.operands.n ∧ intOperand sgn s.operands.n ≤ 15 then
      s.deliver { status := .ok, rch := some (BitVec.ofInt 5 (intOperand sgn s.operands.n)) }
    else raise .invalidChannel s)

end Sys2Proof.Machine
end

