-- ==== Sys2Proof/Machine/ChannelOps.lean ====
section
/-! DEFINITION. The single-channel bus commands (spec file 44_channel_ops.md). Code 16 (All) takes the broadcast block and
is otherwise as any channel (R105). -/

namespace Sys2Proof.Machine

/-- SETON (R96): program the on count; the full-on flag is written as 0. -/
def execSeton (ch : Nat) (s : State) : Host.Outcome State Fault Refusal :=
  .next (checkCh ch s (checkCounts [s.operands.a] s
    (programCommand (addrOf s.cfg ch .on .low :: pairBytes s.operands.a false) s)))

/-- SETOFF (R97): program the off count; the full-off flag is written as 0. -/
def execSetoff (ch : Nat) (s : State) : Host.Outcome State Fault Refusal :=
  .next (checkCh ch s (checkCounts [s.operands.a] s
    (programCommand (addrOf s.cfg ch .off .low :: pairBytes s.operands.a false) s)))

/-- SETFON (R98): set the full-on flag; the count is checked although it is not sent. -/
def execSetfon (ch : Nat) (s : State) : Host.Outcome State Fault Refusal :=
  .next (checkCh ch s (checkCounts [s.operands.a] s
    (programCommand (addrOf s.cfg ch .on .low :: pairBytes s.operands.a true) s)))

/-- SETFOFF (R99): set the full-off flag; no count is read. -/
def execSetfoff (ch : Nat) (s : State) : Host.Outcome State Fault Refusal :=
  .next (checkCh ch s (programCommand (addrOf s.cfg ch .off .low :: pairBytes 0#16 true) s))

/-- The result of GETON and GETOFF (R100, R101): the raw count and the flag of the two bytes read. -/
def pairResult (d : Vector Byte 64) : Result :=
  { status := .ok, rcount := some (decPair d[0] d[1]).1, rfull := some (decPair d[0] d[1]).2 }

/-- The result of GETFON and GETFOFF (R102, R103): the flag only. -/
def flagResult (d : Vector Byte 64) : Result := { status := .ok, rfull := some (decPair d[0] d[1]).2 }

/-- GETON (R100): read back the on pair. -/
def execGeton (ch : Nat) (s : State) : Host.Outcome State Fault Refusal :=
  .next (checkCh ch s (readCommand (addrOf s.cfg ch .on .low) 2 pairResult s))

/-- GETOFF (R101): read back the off pair. -/
def execGetoff (ch : Nat) (s : State) : Host.Outcome State Fault Refusal :=
  .next (checkCh ch s (readCommand (addrOf s.cfg ch .off .low) 2 pairResult s))

/-- GETFON (R102): read the full-on flag; both bytes of the pair are read. -/
def execGetfon (ch : Nat) (s : State) : Host.Outcome State Fault Refusal :=
  .next (checkCh ch s (readCommand (addrOf s.cfg ch .on .low) 2 flagResult s))

/-- GETFOFF (R103): read the full-off flag; both bytes of the pair are read. -/
def execGetfoff (ch : Nat) (s : State) : Host.Outcome State Fault Refusal :=
  .next (checkCh ch s (readCommand (addrOf s.cfg ch .off .low) 2 flagResult s))

/-- SETONOFF (R104): program both counts of a channel in one 5-byte write; both are checked before anything else. -/
def execSetonoff (ch : Nat) (s : State) : Host.Outcome State Fault Refusal :=
  .next (checkCh ch s (checkCounts [s.operands.a, s.operands.b] s
    (programCommand (addrOf s.cfg ch .on .low :: blockBytes s.operands.a s.operands.b) s)))

end Sys2Proof.Machine
end

