-- ==== Sys2Proof/Machine/Codec.lean ====
section
/-! DEFINITION. ENC and DEC (spec file 42_codec.md). -/

namespace Sys2Proof.Machine

/-- ENC (R83): the register pair of a checked count and the flag of the command word; no bus access. -/
def execEnc (full : Bool) (s : State) : Host.Outcome State Fault Refusal :=
  .next (checkCounts [s.operands.a] s
    (s.deliver { status := .ok, rlo := some (encPair s.operands.a full).1, rhi := some (encPair s.operands.a full).2 }))

/-- DEC (R84): the count and the flag of any two bytes; no bus access and no error. -/
def execDec (s : State) : Host.Outcome State Fault Refusal :=
  .next (s.deliver
    { status := .ok, rcount := some (decPair s.operands.l s.operands.h).1, rfull := some (decPair s.operands.l s.operands.h).2 })

end Sys2Proof.Machine
end

