-- ==== Sys2Proof/Machine/Dispatch.lean ====
section
/-! DEFINITION. One arm per command, each one direct call of its meaning. -/

namespace Sys2Proof.Machine

def exec (i : Instr) (s : State) : Host.Outcome State Fault Refusal :=
  match i with
  | .chint sgn => Sys2Proof.Machine.execChint sgn s
  | .addr ch which half => Sys2Proof.Machine.execAddr ch which half s
  | .enc full => Sys2Proof.Machine.execEnc full s
  | .dec => Sys2Proof.Machine.execDec s
  | .seton ch => Sys2Proof.Machine.execSeton ch s
  | .setoff ch => Sys2Proof.Machine.execSetoff ch s
  | .setfon ch => Sys2Proof.Machine.execSetfon ch s
  | .setfoff ch => Sys2Proof.Machine.execSetfoff ch s
  | .geton ch => Sys2Proof.Machine.execGeton ch s
  | .getoff ch => Sys2Proof.Machine.execGetoff ch s
  | .getfon ch => Sys2Proof.Machine.execGetfon ch s
  | .getfoff ch => Sys2Proof.Machine.execGetfoff ch s
  | .setonoff ch => Sys2Proof.Machine.execSetonoff ch s
  | .setall => Sys2Proof.Machine.execSetall s
  | .getall => Sys2Proof.Machine.execGetall s

end Sys2Proof.Machine
end

