-- ==== Sys2Proof/Machine/Step.lean ====
section
/-! DEFINITION. One step: the block accepts what the host does next and, if that is a legal command, runs it whole (R3,
R26, R146). -/

namespace Sys2Proof.Machine

/-- One atomic step. -/
def step (s : State) : Host.Outcome State Fault Refusal :=
  match accept s with
  | .refuse r => .refused r
  | .done t => .next t
  | .run i t => exec i t

/-- `s` with the table bits `w` as the next command word presented (notes/assumptions/12.md says how a program comes to run
from reset). -/
def State.withFetchWord (s : State) (nbits w : Nat) : State :=
  { s with inputs := presentWord (BitVec.ofNat 16 (tableBits nbits w)) s.inputs }

end Sys2Proof.Machine
end

