-- ==== Sys2Proof/Machine/Assembler.lean ====
section
/-! DEFINITION. The assembler lines of R62 as data (the text notation itself is not parsed): the command word and the operand
record each line presents. There are no pseudo-instructions: every line is one command (R63). -/

namespace Sys2Proof.Machine

/-- How a line writes a channel: `C0`..`C15`, `ALL`, or `#n` for a raw code 0..31 (R62). -/
inductive ChannelName where
  | c (k : Fin 16)
  | all
  | raw (n : Fin 32)
  deriving DecidableEq, Repr

/-- The lines of R62. -/
inductive Line where
  | chint (n : BitVec 32)
  | chintS (n : Int)
  | addr (ch : ChannelName) (which : Which) (half : Half)
  | enc (count : Word)
  | encF (count : Word)
  | dec (lo hi : Byte)
  | seton (ch : ChannelName) (count : Word)
  | setoff (ch : ChannelName) (count : Word)
  | setfon (ch : ChannelName) (count : Word)
  | setfoff (ch : ChannelName)
  | geton (ch : ChannelName)
  | getoff (ch : ChannelName)
  | getfon (ch : ChannelName)
  | getfoff (ch : ChannelName)
  | setonoff (ch : ChannelName) (on off : Word)
  | setall (on off : Vector Word 16)
  | getall
  deriving DecidableEq, Repr

/-- The channel code a name stands for (R50, R62). -/
def channelCode : ChannelName → Nat
  | .c k => k.val
  | .all => 16
  | .raw n => n.val

/-- The command of a line (R62). -/
def lineInstr : Line → Instr
  | .chint _ => .chint false
  | .chintS _ => .chint true
  | .addr ch which half => .addr (channelCode ch) which half
  | .enc _ => .enc false
  | .encF _ => .enc true
  | .dec _ _ => .dec
  | .seton ch _ => .seton (channelCode ch)
  | .setoff ch _ => .setoff (channelCode ch)
  | .setfon ch _ => .setfon (channelCode ch)
  | .setfoff ch => .setfoff (channelCode ch)
  | .geton ch => .geton (channelCode ch)
  | .getoff ch => .getoff (channelCode ch)
  | .getfon ch => .getfon (channelCode ch)
  | .getfoff ch => .getfoff (channelCode ch)
  | .setonoff ch _ _ => .setonoff (channelCode ch)
  | .setall _ _ => .setall
  | .getall => .getall

/-- The operand record of a line (R62). DESIGN CHOICE (notes/assumptions/18.md): a field the line does not name is 0 (no command
reads it, R60), and `CHINT.S n` with an `n` outside -2^31..2^31-1, for which the spec gives no range and no record, presents `n`
modulo 2^32. -/
def lineOperands : Line → Operands
  | .chint n => { Operands.zero with n := n }
  | .chintS n => { Operands.zero with n := BitVec.ofInt 32 n }
  | .addr _ _ _ => Operands.zero
  | .enc count => { Operands.zero with a := count }
  | .encF count => { Operands.zero with a := count }
  | .dec lo hi => { Operands.zero with l := lo, h := hi }
  | .seton _ count => { Operands.zero with a := count }
  | .setoff _ count => { Operands.zero with a := count }
  | .setfon _ count => { Operands.zero with a := count }
  | .setfoff _ => Operands.zero
  | .geton _ => Operands.zero
  | .getoff _ => Operands.zero
  | .getfon _ => Operands.zero
  | .getfoff _ => Operands.zero
  | .setonoff _ on off => { Operands.zero with a := on, b := off }
  | .setall on off => { Operands.zero with von := on, voff := off }
  | .getall => Operands.zero

/-- What a line presents at the command and operand ports (R62). -/
def lineCommand (l : Line) : Command := { cw := encode (lineInstr l), opd := lineOperands l }

end Sys2Proof.Machine
end

