-- ==== Sys2Proof/Machine/Fixture.lean ====
section
/-! DEFINITION. The test fixture RF of spec file 95_test_vectors.md section 1 (decision D19): a reference register file that
answers the block's requests. It is NOT part of the block and no field of State holds it (R6, notes/assumptions/14.md): it
is a function of the transaction log, so that a claim can say what a well-behaved register file reads back. -/

namespace Sys2Proof.Machine

/-- The fixture's registers, by address. DESIGN CHOICE (notes/assumptions/19.md): the fixture has registers at every address, so
that a read or a write that runs past address 255 neither stops nor wraps; the block issues none (R37). -/
abbrev RegFile := Nat → Byte

/-- All registers 0x00, as at the start of a vector. -/
def rfZero : RegFile := fun _ => 0#8

/-- One byte written at `a`; a byte of the broadcast block is also written to the same byte of all 16 channel blocks. -/
def rfPut (c : Config) (a : Nat) (d : Byte) (rf : RegFile) : RegFile := fun x =>
  if x = a then d
  else if c.allBase.toNat ≤ a ∧ a ≤ c.allBase.toNat + 3 ∧ c.chBase.toNat ≤ x ∧ x ≤ c.chBase.toNat + 63 ∧
      (x - c.chBase.toNat) % 4 = a - c.allBase.toNat then d
  else rf x

/-- Consecutive bytes written from `a` on (the fixture always autoincrements). -/
def rfPutAll (c : Config) (a : Nat) (ds : List Byte) (rf : RegFile) : RegFile :=
  match ds with
  | [] => rf
  | d :: rest => rfPutAll c (a + 1) rest (rfPut c a d rf)

/-- One logged transaction applied: a successful write sets registers; a read and a frame without payload change nothing.
DESIGN CHOICE (notes/assumptions/19.md): a write answered Err changes nothing either; the spec leaves any value there (U7, R36),
and its fixture does not say. -/
def rfApply (c : Config) (t : Transaction) (rf : RegFile) : RegFile :=
  match t.req, t.resp with
  | .write _ (a :: ds), .ok => rfPutAll c a.toNat ds rf
  | _, _ => rf

/-- The registers after a log, oldest transaction first. -/
def rfReplay (c : Config) (log : List Transaction) (rf : RegFile) : RegFile :=
  log.foldl (fun rf t => rfApply c t rf) rf

/-- The fixture's answer to a read that starts at address `a`: the consecutive registers from `a` on. -/
def rfAnswer (rf : RegFile) (a : Byte) : Answer := .ok (Vector.ofFn fun j : Fin 64 => rf (a.toNat + j.val))

end Sys2Proof.Machine
end

