-- ==== Sys2Proof/Safety.lean ====
section
/-! DEFINITION. The terms the claims use: what each command reads, sends and delivers, written a second time from the
spec's tables (R35, R52, R53, R59, R90, R95), and what a good state is. -/

namespace Sys2Proof

open Machine

/-! ### The parameters -/

/-- R9, condition by condition over single addresses: the channel blocks and the broadcast block fit in 8 bits, no address
of the broadcast block is a channel's or mode-1, and mode-1 is not a channel's. -/
def Config.Apart (c : Config) : Prop :=
  c.chBase.toNat + 4 * 15 + 3 ≤ 255 ∧ c.allBase.toNat + 3 ≤ 255 ∧
  (∀ a, c.allBase.toNat ≤ a → a ≤ c.allBase.toNat + 3 →
    ¬ (c.chBase.toNat ≤ a ∧ a ≤ c.chBase.toNat + 63) ∧ a ≠ c.mode1Addr.toNat) ∧
  ¬ (c.chBase.toNat ≤ c.mode1Addr.toNat ∧ c.mode1Addr.toNat ≤ c.chBase.toNat + 63)

/-! ### Tables over the commands -/

/-- The opcode of a command (R59). -/
def Instr.opcode : Instr → Nat
  | .chint _ => 0x0
  | .addr _ _ _ => 0x1
  | .enc _ => 0x2
  | .dec => 0x3
  | .seton _ => 0x4
  | .setoff _ => 0x5
  | .setfon _ => 0x6
  | .setfoff _ => 0x7
  | .geton _ => 0x8
  | .getoff _ => 0x9
  | .getfon _ => 0xA
  | .getfoff _ => 0xB
  | .setonoff _ => 0xC
  | .setall => 0xD
  | .getall => 0xE

/-- The channel code a command reads (R59, column `ch`). -/
def Instr.channel? : Instr → Option Nat
  | .chint _ => none
  | .addr ch _ _ => some ch
  | .enc _ => none
  | .dec => none
  | .seton ch => some ch
  | .setoff ch => some ch
  | .setfon ch => some ch
  | .setfoff ch => some ch
  | .geton ch => some ch
  | .getoff ch => some ch
  | .getfon ch => some ch
  | .getfoff ch => some ch
  | .setonoff ch => some ch
  | .setall => none
  | .getall => none

/-- The bits of the command word a command depends on: `op`, `rsv` and the fields it reads (R59, R60). -/
def Instr.readMask : Instr → Word
  | .chint _ => 0xF00F#16
  | .addr _ _ _ => 0xE7FF#16
  | .enc _ => 0xE80F#16
  | .dec => 0xE00F#16
  | .seton _ => 0xE1FF#16
  | .setoff _ => 0xE1FF#16
  | .setfon _ => 0xE1FF#16
  | .setfoff _ => 0xE1FF#16
  | .geton _ => 0xE1FF#16
  | .getoff _ => 0xE1FF#16
  | .getfon _ => 0xE1FF#16
  | .getfoff _ => 0xE1FF#16
  | .setonoff _ => 0xE1FF#16
  | .setall => 0xE00F#16
  | .getall => 0xE00F#16

/-- The count operands a command checks (R52, R80). -/
def Instr.counts (o : Operands) : Instr → List Word
  | .chint _ => []
  | .addr _ _ _ => []
  | .enc _ => [o.a]
  | .dec => []
  | .seton _ => [o.a]
  | .setoff _ => [o.a]
  | .setfon _ => [o.a]
  | .setfoff _ => []
  | .geton _ => []
  | .getoff _ => []
  | .getfon _ => []
  | .getfoff _ => []
  | .setonoff _ => [o.a, o.b]
  | .setall => o.von.toList ++ o.voff.toList
  | .getall => []

/-- Two operand records agree on every field a command reads (R52, column `used by`). -/
def Instr.AgreeOnRead (o p : Operands) : Instr → Prop
  | .chint _ => o.n = p.n
  | .addr _ _ _ => True
  | .enc _ => o.a = p.a
  | .dec => o.l = p.l ∧ o.h = p.h
  | .seton _ => o.a = p.a
  | .setoff _ => o.a = p.a
  | .setfon _ => o.a = p.a
  | .setfoff _ => True
  | .geton _ => True
  | .getoff _ => True
  | .getfon _ => True
  | .getfoff _ => True
  | .setonoff _ => o.a = p.a ∧ o.b = p.b
  | .setall => o.von = p.von ∧ o.voff = p.voff
  | .getall => True

/-- The low byte of a count's pair with the flag clear, by arithmetic (R57). -/
def lowByte (c : Word) : Byte := BitVec.ofNat 8 (c.toNat % 256)

/-- The high byte of a count's pair with the flag clear, by arithmetic (R56). -/
def highByte (c : Word) : Byte := BitVec.ofNat 8 (c.toNat / 256)

/-- The count in a low and a high byte, by arithmetic (R82). -/
def countOf (l h : Byte) : Word := BitVec.ofNat 16 (l.toNat + 256 * (h.toNat % 16))

/-- The full flag of a high byte, by arithmetic (R56). -/
def flagOf (h : Byte) : Bool := decide (h.toNat / 16 % 2 = 1)

/-- The 64 payload bytes of SETALL: `p = p ++ [l0, h0, l1, h1]` for k in 0..15 (R110). -/
def bulkFrame (o : Operands) : List Byte :=
  (List.finRange 16).flatMap fun k =>
    [lowByte (o.von[k.val]), highByte (o.von[k.val]), lowByte (o.voff[k.val]), highByte (o.voff[k.val])]

/-- The payload request of a command whose checks pass (R35, R96..R111); none for the four commands that use no bus. -/
def Instr.payload? (c : Config) (o : Operands) : Instr → Option Request
  | .chint _ => none
  | .addr _ _ _ => none
  | .enc _ => none
  | .dec => none
  | .seton ch => some (.write c.devAddr [addrOf c ch .on .low, lowByte o.a, highByte o.a])
  | .setoff ch => some (.write c.devAddr [addrOf c ch .off .low, lowByte o.a, highByte o.a])
  | .setfon ch => some (.write c.devAddr [addrOf c ch .on .low, 0x00#8, 0x10#8])
  | .setfoff ch => some (.write c.devAddr [addrOf c ch .off .low, 0x00#8, 0x10#8])
  | .geton ch => some (.writeRead c.devAddr [addrOf c ch .on .low] 2)
  | .getoff ch => some (.writeRead c.devAddr [addrOf c ch .off .low] 2)
  | .getfon ch => some (.writeRead c.devAddr [addrOf c ch .on .low] 2)
  | .getfoff ch => some (.writeRead c.devAddr [addrOf c ch .off .low] 2)
  | .setonoff ch =>
    some (.write c.devAddr [addrOf c ch .on .low, lowByte o.a, highByte o.a, lowByte o.b, highByte o.b])
  | .setall => some (.write c.devAddr (c.chBase :: bulkFrame o))
  | .getall => some (.writeRead c.devAddr [c.chBase] 64)

/-- A command that uses the bus (R90: "every command of 44_channel_ops.md and 45_bulk_ops.md, reads included"). -/
def Instr.isBus : Instr → Bool
  | .chint _ => false
  | .addr _ _ _ => false
  | .enc _ => false
  | .dec => false
  | .seton _ => true
  | .setoff _ => true
  | .setfon _ => true
  | .setfoff _ => true
  | .geton _ => true
  | .getoff _ => true
  | .getfon _ => true
  | .getfoff _ => true
  | .setonoff _ => true
  | .setall => true
  | .getall => true

/-- The channel and count checks of a command pass (R95 steps 2 and 3). -/
def Instr.ChecksPass (o : Operands) (i : Instr) : Prop :=
  (∀ ch, i.channel? = some ch → ch ≤ 16) ∧ ∀ c ∈ i.counts o, c.toNat ≤ 4095

/-- The shape R35 gives a command's payload request, with the one device address (R31). -/
def Instr.PayloadShape (dev : DevAddr) (r : Request) : Instr → Prop
  | .chint _ => False
  | .addr _ _ _ => False
  | .enc _ => False
  | .dec => False
  | .seton _ => ∃ a lo hi, r = .write dev [a, lo, hi]
  | .setoff _ => ∃ a lo hi, r = .write dev [a, lo, hi]
  | .setfon _ => ∃ a lo hi, r = .write dev [a, lo, hi]
  | .setfoff _ => ∃ a lo hi, r = .write dev [a, lo, hi]
  | .geton _ => ∃ a, r = .writeRead dev [a] 2
  | .getoff _ => ∃ a, r = .writeRead dev [a] 2
  | .getfon _ => ∃ a, r = .writeRead dev [a] 2
  | .getfoff _ => ∃ a, r = .writeRead dev [a] 2
  | .setonoff _ => ∃ a onLo onHi offLo offHi, r = .write dev [a, onLo, onHi, offLo, offHi]
  | .setall => ∃ a bytes, bytes.length = 64 ∧ r = .write dev (a :: bytes)
  | .getall => ∃ a, r = .writeRead dev [a] 64

/-- The result fields R53 lists for a command, present and no others, when its status is OK. -/
def Instr.DeliversFields (r : Result) : Instr → Prop
  | .chint _ => ∃ c, r = { status := .ok, rch := some c }
  | .addr _ _ _ => ∃ a, r = { status := .ok, raddr := some a }
  | .enc _ => ∃ l h, r = { status := .ok, rlo := some l, rhi := some h }
  | .dec => ∃ c f, r = { status := .ok, rcount := some c, rfull := some f }
  | .seton _ => r = { status := .ok }
  | .setoff _ => r = { status := .ok }
  | .setfon _ => r = { status := .ok }
  | .setfoff _ => r = { status := .ok }
  | .geton _ => ∃ c f, r = { status := .ok, rcount := some c, rfull := some f }
  | .getoff _ => ∃ c f, r = { status := .ok, rcount := some c, rfull := some f }
  | .getfon _ => ∃ f, r = { status := .ok, rfull := some f }
  | .getfoff _ => ∃ f, r = { status := .ok, rfull := some f }
  | .setonoff _ => r = { status := .ok }
  | .setall => r = { status := .ok }
  | .getall => ∃ on off, r = { status := .ok, ron := some on, roff := some off }

namespace Machine

/-! ### Runs -/

/-- `k` steps, stopping at the first fault or refusal (the host's run, written over `step`). -/
def runSteps : Nat → State → Host.Outcome State Fault Refusal
  | 0, s => .next s
  | k + 1, s =>
    match step s with
    | .next t => runSteps k t
    | .fault r => .fault r
    | .refused r => .refused r

/-! ### The gate, in terms of the state alone -/

/-- The mode-1 write of R90 and R91: `[MODE1_ADDR, 0x20]` to the one device. -/
def gateRequest (c : Config) : Request := .write c.devAddr [c.mode1Addr, 0x20#8]

/-- The log entry of a successful mode-1 write. -/
def gateEntry (c : Config) : Transaction := { req := gateRequest c, resp := .ok }

/-- The log entries a passing gate adds: the mode-1 write when the gate was Unset, nothing when it was Set (R90). -/
def gateEntries (s : State) : List Transaction := if s.ai then [] else [gateEntry s.cfg]

/-- `g` is `s` after an EnsureGate that returned (R90): the gate was Set and nothing happened, or the mode-1 write
succeeded and the gate became Set. -/
def GatePassed (s g : State) : Prop :=
  (s.ai = true ∧ g = s) ∨
  (s.ai = false ∧ (∃ d, s.peek = .ok d) ∧ g = { s.advance with ai := true, log := s.log ++ [gateEntry s.cfg] })

/-- `g` is `s` after an EnsureGate that raised BUS_ERROR(e) (R90): the gate was Unset and its write failed. -/
def GateFailed (s : State) (e : BusErr) (g : State) : Prop :=
  s.ai = false ∧ s.peek = .err e ∧ g = { s.advance with log := s.log ++ [{ req := gateRequest s.cfg, resp := .err e }] }

/-- How many successful mode-1 writes a log holds. -/
def gateWrites (c : Config) (log : List Transaction) : Nat := log.countP fun t => decide (t = gateEntry c)

/-- In a list of log entries every transaction that is not a mode-1 write has a successful mode-1 write before it. -/
def GateFirst (c : Config) (log : List Transaction) : Prop :=
  ∀ before t after, log = before ++ t :: after → t.req ≠ gateRequest c → gateEntry c ∈ before

/-! ### What a bus command does after its checks -/

/-- Command `i` in state `s` completes by delivering `r`; the operand port is free again (R26) and nothing else changes. -/
def Delivers (i : Instr) (s : State) (r : Result) : Prop := exec i s = .next { s with opd := none, res := some r }

/-- Command `i` has the word `w`: it is assembled to `w`, and `w` decodes to it, as does every word that differs from `w` only
in fields the command ignores (R59, R60). -/
def HasWord (i : Instr) (w : Word) : Prop :=
  encode i = w ∧ ∀ v : Word, v &&& i.readMask = w &&& i.readMask → decode v = .ok i

/-- The assembler line `l` has the word `w`, as a number, and presents the operand record `o` (R62), and a step of a
well-configured block that is presented it runs command `i`. -/
def LineRuns (l : Line) (w : Nat) (i : Instr) (o : Operands) : Prop :=
  (lineCommand l).cw.toNat = w ∧ (lineCommand l).opd = o ∧
  ∀ (s : State) (rest : List HostInput), s.cfg.WF → s.inputs = .command (lineCommand l) :: rest →
    step s = exec i { s with inputs := rest, opd := some o, res := none }

/-- The word `op | ch<<4` of a channel command (R62). -/
def chWord (op : Word) (ch : Nat) : Word := op ||| (BitVec.ofNat 16 ch <<< 4)

/-- Command `i` in state `s`, its checks passed, runs the gate and then the one payload request `p`, and delivers `r d` when
the payload is answered with data `d` (R95 steps 4 to 6); the operand port is free again (R26) and every field not named is
unchanged. -/
def RunsPayload (i : Instr) (s : State) (p : Request) (r : Vector Byte 64 → Result) : Prop :=
  (∀ g e, GateFailed s e g → exec i s = .next { g with opd := none, res := some { status := .busError, berr := some e } }) ∧
  (∀ g d, GatePassed s g → g.peek = .ok d →
    exec i s = .next { g.advance with
      opd := none, log := g.log ++ [{ req := p, resp := respond (.ok d) p }], res := some (r d) }) ∧
  (∀ g e, GatePassed s g → g.peek = .err e →
    exec i s = .next { g.advance with
      opd := none, log := g.log ++ [{ req := p, resp := .err e }], res := some { status := .busError, berr := some e } })

/-! ### Addresses and responses -/

/-- The addresses a request touches (R33): frame element i goes to `frame[0] + i - 1`; read byte j is from `wbytes[0] + j`. -/
def Request.touched : Request → List Nat
  | .write _ [] => []
  | .write _ (a :: ds) => (List.range ds.length).map (a.toNat + ·)
  | .writeRead _ [] _ => []
  | .writeRead _ (a :: _) n => (List.range n).map (a.toNat + ·)

/-- The address map of R37: mode-1, the 16 channel blocks, the broadcast block. -/
def InMap (c : Config) (a : Nat) : Prop :=
  a = c.mode1Addr.toNat ∨ (c.chBase.toNat ≤ a ∧ a ≤ c.chBase.toNat + 63) ∨ (c.allBase.toNat ≤ a ∧ a ≤ c.allBase.toNat + 3)

/-- Every register a request touches is mapped (R37): it is the gate write, which touches mode-1 only, or it touches registers of
the channel blocks and the broadcast block only and starts at the low byte of a pair (R38). -/
def MappedAndAligned (c : Config) (p : Request) : Prop :=
  (p = gateRequest c ∧ p.touched = [c.mode1Addr.toNat]) ∨
  ((∀ a ∈ p.touched, (c.chBase.toNat ≤ a ∧ a ≤ c.chBase.toNat + 63) ∨ (c.allBase.toNat ≤ a ∧ a ≤ c.allBase.toNat + 3)) ∧
    ∃ (ch : Nat) (w : Which), ch ≤ 16 ∧ p.touched.head? = some (addrOf c ch w .low).toNat)

/-- The device a request names. -/
def Request.device : Request → DevAddr
  | .write dev _ => dev
  | .writeRead dev _ _ => dev

/-- A response has the shape R34 gives it: Ok to a write, exactly n bytes to a read of n, or an error. -/
def Fits : Request → Response → Prop
  | .write _ _, .ok => True
  | .write _ _, .okData _ => False
  | .writeRead _ _ n, .okData d => d.length = n
  | .writeRead _ _ _, .ok => False
  | _, .err _ => True

/-! ### Good states -/

/-- A result record as R53 and R120 allow it: an error word exactly with BUS_ERROR, no other field unless OK, a channel code
of C0..C15, counts of 12 bits. -/
structure Result.Legal (r : Result) : Prop where
  berr : r.berr.isSome = true ↔ r.status = .busError
  onError : r.status ≠ .ok → r = { status := r.status, berr := r.berr }
  channel : ∀ c, r.rch = some c → c.toNat ≤ 15
  count : ∀ c, r.rcount = some c → c.toNat ≤ 4095
  onCounts : ∀ v, r.ron = some v → ∀ c ∈ v.toList, c.toNat ≤ 4095
  offCounts : ∀ v, r.roff = some v → ∀ c ∈ v.toList, c.toNat ≤ 4095

/-- The invariant: well-formed parameters; the gate is Set only after a successful mode-1 write and every payload comes after
one; every logged transaction names the one device, touches mapped addresses only and has a response of its shape; the
operand port holds no value (R26); the result port holds a legal result. -/
structure Inv (s : State) : Prop where
  config : s.cfg.WF
  gateLogged : s.ai = true → gateEntry s.cfg ∈ s.log
  gateFirst : GateFirst s.cfg s.log
  device : ∀ t ∈ s.log, t.req.device = s.cfg.devAddr
  mapped : ∀ t ∈ s.log, ∀ a ∈ t.req.touched, InMap s.cfg a
  shaped : ∀ t ∈ s.log, Fits t.req t.resp
  operand : s.opd = none
  result : ∀ r, s.res = some r → r.Legal

end Machine

end Sys2Proof
end

