-- ==== Sys2Proof/Certificates/Slice0/Obligations.lean ====
section
/-! DEFINITION. The statements for the provers. Each docstring names the rule or the spec's sentence it formalises. -/

open Sys2Proof Sys2Proof.Machine

/-! ### Encoding -/

/-- R62 "Encoding of a line", R51, R59: decoding the word of any well-formed command gives the command back, with every
operand at every value its field admits. -/
def Obligations.DecodeOfEncodeIsIdentity : Prop :=
  ∀ i : Instr, i.wellFormed = true → decode (encode i) = .ok i

/-- R60 last sentence with R62 "unused fields 0": encoding what a word decodes to gives the word with the fields the command
does not read cleared, and the decoded command is well formed. -/
def Obligations.EncodeOfDecodeClearsUnreadFields : Prop :=
  ∀ (w : Word) (i : Instr), decode w = .ok i → i.wellFormed = true ∧ encode i = w &&& i.readMask

/-- R59 with the fields of R51 and the selector codes of R55, by arithmetic on the word: a word with `rsv = 0` is the command
of its opcode with its fields, for each of the 15 opcodes, and `cw & 0xE00F == op` says which words those are. -/
def Obligations.OpcodeMapReadsFields : Prop :=
  ∀ w : Word,
    let n := w.toNat
    let ch := n / 16 % 32
    let which : Which := if n / 512 % 2 = 1 then .off else .on
    let half : Half := if n / 1024 % 2 = 1 then .high else .low
    ((w &&& 0xE00F#16) = 0x0#16 → decode w = .ok (.chint (decide (n / 4096 % 2 = 1)))) ∧
    ((w &&& 0xE00F#16) = 0x1#16 → decode w = .ok (.addr ch which half)) ∧
    ((w &&& 0xE00F#16) = 0x2#16 → decode w = .ok (.enc (decide (n / 2048 % 2 = 1)))) ∧
    ((w &&& 0xE00F#16) = 0x3#16 → decode w = .ok .dec) ∧
    ((w &&& 0xE00F#16) = 0x4#16 → decode w = .ok (.seton ch)) ∧
    ((w &&& 0xE00F#16) = 0x5#16 → decode w = .ok (.setoff ch)) ∧
    ((w &&& 0xE00F#16) = 0x6#16 → decode w = .ok (.setfon ch)) ∧
    ((w &&& 0xE00F#16) = 0x7#16 → decode w = .ok (.setfoff ch)) ∧
    ((w &&& 0xE00F#16) = 0x8#16 → decode w = .ok (.geton ch)) ∧
    ((w &&& 0xE00F#16) = 0x9#16 → decode w = .ok (.getoff ch)) ∧
    ((w &&& 0xE00F#16) = 0xA#16 → decode w = .ok (.getfon ch)) ∧
    ((w &&& 0xE00F#16) = 0xB#16 → decode w = .ok (.getfoff ch)) ∧
    ((w &&& 0xE00F#16) = 0xC#16 → decode w = .ok (.setonoff ch)) ∧
    ((w &&& 0xE00F#16) = 0xD#16 → decode w = .ok .setall) ∧
    ((w &&& 0xE00F#16) = 0xE#16 → decode w = .ok .getall) ∧
    ((∃ i, decode w = .ok i) ↔ (w &&& 0xE00F#16).toNat < 15)

/-- R60: a word with `op = 0xF` or `rsv != 0` raises ILLEGAL_COMMAND: the step takes the command off the port, issues no
transaction, leaves `st.ai` unchanged and delivers the status and no other field; and a field the command does not read, in
the word or in the operand record, changes nothing. -/
def Obligations.IllegalWordsRaiseAndUnreadFieldsAreIgnored : Prop :=
  (∀ (s : State) (c : Command) (rest : List HostInput), s.cfg.WF → s.inputs = .command c :: rest →
    (c.cw.toNat % 16 = 15 ∨ c.cw.toNat / 8192 ≠ 0) →
    step s = .next { s with inputs := rest, opd := none, res := some { status := .illegalCommand } }) ∧
  (∀ (w v : Word) (i : Instr), decode w = .ok i → v &&& i.readMask = w &&& i.readMask → decode v = .ok i) ∧
  (∀ (i : Instr) (s t : State) (o : Operands), i.AgreeOnRead s.operands o → exec i s = .next t →
    exec i { s with opd := some o } = .next t)

/-- A few words written out from R51 and R62 decode to the command they stand for. -/
def Obligations.KnownWordsDecode : Prop :=
  decode 0b0000011011110001#16 = .ok (.addr 15 .off .high) ∧
  decode 0b0001000000000000#16 = .ok (.chint true) ∧
  decode 0b0000100000000010#16 = .ok (.enc true) ∧
  decode 0b0000000100001001#16 = .ok (.getoff 16) ∧
  decode 0b0000000010011100#16 = .ok (.setonoff 9) ∧
  decode 0b0000000000001110#16 = .ok .getall ∧
  decode 0b0000000000001111#16 = .error .reservedOpcode ∧
  decode 0b0010000000000101#16 = .error .reservedBits

/-- 30_encoding.md section 4, line by line: the word (by arithmetic: op + 16*ch + 512*which + 1024*byte + 2048*full + 4096*sgn)
and the operand record of each line, and the command a step that is presented the line runs; `C0`..`C15`, `ALL` and `#n` are
the codes 0..15, 16 and n. The lines are data, their text is not parsed (notes/assumptions/17.md). That a field the line does
not name is 0 is the model's choice (notes/assumptions/18.md), as is CHINT.S outside 32 bits, of which nothing is said here. -/
def Obligations.AssembledLines : Prop :=
  (∀ k : Fin 16, channelCode (.c k) = k.val) ∧ channelCode .all = 16 ∧ (∀ n : Fin 32, channelCode (.raw n) = n.val) ∧
  (∀ n : BitVec 32, LineRuns (.chint n) 0x0 (.chint false) { Operands.zero with n := n }) ∧
  (∀ n : Int, -2147483648 ≤ n → n ≤ 2147483647 → ∃ v : BitVec 32, v.toInt = n ∧
    LineRuns (.chintS n) (0x0 + 4096) (.chint true) { Operands.zero with n := v }) ∧
  (∀ (ch : ChannelName) (w : Which) (h : Half), LineRuns (.addr ch w h)
    (0x1 + 16 * channelCode ch + (if w = .off then 512 else 0) + (if h = .high then 1024 else 0))
    (.addr (channelCode ch) w h) Operands.zero) ∧
  (∀ c : Word, LineRuns (.enc c) 0x2 (.enc false) { Operands.zero with a := c }) ∧
  (∀ c : Word, LineRuns (.encF c) (0x2 + 2048) (.enc true) { Operands.zero with a := c }) ∧
  (∀ lo hi : Byte, LineRuns (.dec lo hi) 0x3 .dec { Operands.zero with l := lo, h := hi }) ∧
  (∀ (ch : ChannelName) (c : Word),
    LineRuns (.seton ch c) (0x4 + 16 * channelCode ch) (.seton (channelCode ch)) { Operands.zero with a := c } ∧
    LineRuns (.setoff ch c) (0x5 + 16 * channelCode ch) (.setoff (channelCode ch)) { Operands.zero with a := c } ∧
    LineRuns (.setfon ch c) (0x6 + 16 * channelCode ch) (.setfon (channelCode ch)) { Operands.zero with a := c }) ∧
  (∀ ch : ChannelName,
    LineRuns (.setfoff ch) (0x7 + 16 * channelCode ch) (.setfoff (channelCode ch)) Operands.zero ∧
    LineRuns (.geton ch) (0x8 + 16 * channelCode ch) (.geton (channelCode ch)) Operands.zero ∧
    LineRuns (.getoff ch) (0x9 + 16 * channelCode ch) (.getoff (channelCode ch)) Operands.zero ∧
    LineRuns (.getfon ch) (0xA + 16 * channelCode ch) (.getfon (channelCode ch)) Operands.zero ∧
    LineRuns (.getfoff ch) (0xB + 16 * channelCode ch) (.getfoff (channelCode ch)) Operands.zero) ∧
  (∀ (ch : ChannelName) (on off : Word),
    LineRuns (.setonoff ch on off) (0xC + 16 * channelCode ch) (.setonoff (channelCode ch))
      { Operands.zero with a := on, b := off }) ∧
  (∀ on off : Vector Word 16, LineRuns (.setall on off) 0xD .setall { Operands.zero with von := on, voff := off }) ∧
  LineRuns .getall 0xE .getall Operands.zero

/-! ### The step, reset and the host -/

/-- When the word at the command port decodes to a command, a step of a well-configured block is that command's meaning at
the state in which the command is off the host's list, its record stands at the operand port and the result port is empty. -/
def Obligations.StepRunsTheDecodedCommand : Prop :=
  ∀ (s : State) (c : Command) (rest : List HostInput) (i : Instr), s.cfg.WF → s.inputs = .command c :: rest →
    decode c.cw = .ok i → step s = exec i { s with inputs := rest, opd := some c.opd, res := none }

/-- R9 (marked by the spec as derived): the four conditions written out by arithmetic; a step is refused exactly when one of
them fails (when it is refused is the model's choice, notes/assumptions/6.md) and never stops otherwise (errors are statuses,
60_exceptions.md section 1 and notes/assumptions/13.md; waiting is a step, 7.md; the transport answers, 16.md); under them no register address wraps; the defaults meet them. -/
def Obligations.OnlyAnIllFormedConfigurationStops : Prop :=
  (∀ s : State, ¬ s.cfg.Apart → step s = .refused .illFormedConfig) ∧
  (∀ s : State, s.cfg.Apart → ∃ t, step s = .next t) ∧
  (∀ (c : Config) (ch : Nat) (w : Which) (h : Half), c.Apart → ch ≤ 16 →
    blockBase c ch + 2 * whichOffset w + halfOffset h ≤ 255) ∧
  Config.default.Apart

/-- The model's choice (notes/assumptions/7.md): with nothing presented the block waits; the gate, the log and the transport are
untouched, and no port holds a value (R26). With the operand port empty, as every step leaves it, only the result port
changes. -/
def Obligations.IdleStepOnlyEmptiesTheResultPort : Prop :=
  (∀ s : State, s.cfg.WF → s.inputs = [] → step s = .next { s with opd := none, res := none }) ∧
  (∀ s : State, s.cfg.WF → s.inputs = [] → s.opd = none → step s = .next { s with res := none })

/-- R140 "Reset sets st.ai <- 0 ... Reset issues no transaction" and R28, for a reset the host gives between commands (the
model's choice of input, notes/assumptions/9.md): the gate is Unset, the operand and result ports hold no value, the log, the parameters and what is
outside the block are unchanged; and no other input ever makes a Set gate Unset. -/
def Obligations.ResetUnsetsTheGate : Prop :=
  (∀ (s : State) (rest : List HostInput), s.cfg.WF → s.inputs = .reset :: rest →
    step s = .next { s with inputs := rest, ai := false, opd := none, res := none }) ∧
  (∀ s t : State, step s = .next t → s.ai = true → t.ai = false → s.inputs.head? = some .reset)

/-- R28 and R140: the state after reset, for every value of the parameters; `State.reset` is the one with the defaults of R8
(the model's values, notes/assumptions/4.md and 5.md). -/
def Obligations.ResetState : Prop :=
  (∀ c : Config, (State.resetWith c).ai = false ∧ (State.resetWith c).opd = none ∧ (State.resetWith c).res = none ∧ (State.resetWith c).inputs = [] ∧
    (State.resetWith c).log = [] ∧ (State.resetWith c).cfg = c) ∧
  State.reset.cfg.mode1Addr = 0x00#8 ∧ State.reset.cfg.chBase = 0x06#8 ∧ State.reset.cfg.allBase = 0xFA#8 ∧
  State.reset.cfg.WF

/-- R26 "One command is accepted, runs to completion (all its transactions answered), and delivers its result before the next
command is accepted" and "None of them holds a value between commands": one step takes exactly the presented command, delivers
a result, leaves the operand port empty, and only adds to the log. The delivered result stands until the next step
(notes/assumptions/11.md), and the transport answers within the step (notes/assumptions/16.md). -/
def Obligations.OneCommandPerStep : Prop :=
  ∀ (s : State) (c : Command) (rest : List HostInput), s.cfg.WF → s.inputs = .command c :: rest →
    ∃ t r, step s = .next t ∧ t.inputs = rest ∧ t.res = some r ∧ t.cfg = s.cfg ∧ t.opd = none ∧ ∃ new, t.log = s.log ++ new

/-- R26 and R40 over a run: from a well-configured state any number of steps completes, taking the host's inputs in order
(notes/assumptions/1.md, 7.md, 13.md and 16.md). -/
def Obligations.RunsTakeInputsInOrder : Prop :=
  ∀ (k : Nat) (s : State), s.cfg.WF → ∃ t, runSteps k s = .next t ∧ t.inputs = s.inputs.drop k ∧ t.cfg = s.cfg

/-! ### Channel identifier -/

/-- R70: CHINT has the word 0x0000 | sgn<<12, delivers the channel code of the integer it reads when that is 0..15 and raises
INVALID_CHANNEL otherwise; nothing else changes. -/
def Obligations.ChintConvertsTheInteger : Prop :=
  ∀ (s : State) (sgn : Bool),
    let v : Int := if sgn = true then s.operands.n.toInt else (s.operands.n.toNat : Int)
    HasWord (.chint sgn) (if sgn = true then 0x1000#16 else 0x0000#16) ∧
    (∀ k : Nat, k ≤ 15 → v = k → Delivers (.chint sgn) s { status := .ok, rch := some (BitVec.ofNat 5 k) }) ∧
    (v < 0 ∨ 15 < v → Delivers (.chint sgn) s { status := .invalidChannel })

/-- R71, with R50: every command that reads `ch` raises INVALID_CHANNEL on the codes 17..31 with no side effect, whatever its
counts and the gate are; the codes 0..15 and 16 pass: no such command then ends with INVALID_CHANNEL. -/
def Obligations.ChannelCheckRunsFirst : Prop :=
  ∀ (i : Instr) (s : State) (ch : Nat), i.channel? = some ch →
    (16 < ch → Delivers i s { status := .invalidChannel }) ∧
    (ch ≤ 16 → ∃ t r, exec i s = .next t ∧ t.res = some r ∧ r.status ≠ .invalidChannel)

/-- R72: (a) CHINT with N = n in 0..15 succeeds with rch = n, whose integer is n, under either signedness; (b) it raises
INVALID_CHANNEL for every other integer; (c) no command converts All: a delivered channel code is CHINT's and is never 16. -/
def Obligations.ChannelIntegerBijection : Prop :=
  (∀ (s : State) (sgn : Bool) (n : Nat), n ≤ 15 → s.operands.n = BitVec.ofNat 32 n →
    ∃ c : BitVec 5, c.toNat = n ∧ Delivers (.chint sgn) s { status := .ok, rch := some c }) ∧
  (∀ (s : State), ¬ (0 ≤ s.operands.n.toInt ∧ s.operands.n.toInt ≤ 15) → Delivers (.chint true) s { status := .invalidChannel }) ∧
  (∀ (s : State), 15 < s.operands.n.toNat → Delivers (.chint false) s { status := .invalidChannel }) ∧
  (∀ (i : Instr) (s t : State) (r : Result) (c : BitVec 5), exec i s = .next t → t.res = some r → r.rch = some c →
    (∃ sgn, i = .chint sgn) ∧ c.toNat ≠ 16)

/-! ### Address multiplexer -/

/-- R75: under a well-formed configuration the address of a selection is ALL_BASE or CH_BASE + 4*ch, plus 2 for off, plus 1
for high, as a number: the truncation changes nothing. -/
def Obligations.AddressOfSelection : Prop :=
  ∀ (c : Config) (w : Which) (h : Half), c.WF →
    let o := (if w = .off then 2 else 0) + (if h = .high then 1 else 0)
    (addrOf c 16 w h).toNat = c.allBase.toNat + o ∧
    ∀ k : Nat, k ≤ 15 → (addrOf c k w h).toNat = c.chBase.toNat + 4 * k + o

/-- R76: ADDR has the word 0x0001 | ch<<4 | which<<9 | byte<<10; it delivers the register address of the selection and
changes nothing else; the codes 17..31 raise INVALID_CHANNEL. -/
def Obligations.AddrOutputsTheAddress : Prop :=
  ∀ (s : State) (ch : Nat) (w : Which) (h : Half),
    (ch < 32 → HasWord (.addr ch w h)
      (chWord 0x0001#16 ch ||| (if w = .off then 0x0200#16 else 0#16) ||| (if h = .high then 0x0400#16 else 0#16))) ∧
    (ch ≤ 16 → Delivers (.addr ch w h) s { status := .ok, raddr := some (addrOf s.cfg ch w h) }) ∧
    (16 < ch → Delivers (.addr ch w h) s { status := .invalidChannel })

/-- The laws the spec derives in 41_address_mux.md section R77: (a) injective on its 68 points, channel and broadcast addresses
apart; (b) the high byte at the next address; (c) the off pair after the on pair; (d) blocks contiguous in channel order. -/
def Obligations.MultiplexerLaws : Prop :=
  ∀ c : Config, c.WF →
    (∀ (ch ch' : Nat) (w w' : Which) (h h' : Half), ch ≤ 16 → ch' ≤ 16 → addrOf c ch w h = addrOf c ch' w' h' →
      ch = ch' ∧ w = w' ∧ h = h') ∧
    (∀ (ch : Nat) (w : Which), ch ≤ 16 → (addrOf c ch w .high).toNat = (addrOf c ch w .low).toNat + 1) ∧
    (∀ ch : Nat, ch ≤ 16 → (addrOf c ch .off .low).toNat = (addrOf c ch .on .low).toNat + 2) ∧
    (∀ (k : Nat) (w : Which) (h : Half), k ≤ 14 → (addrOf c (k + 1) w h).toNat = (addrOf c k w h).toNat + 4) ∧
    (∀ a : Nat, c.chBase.toNat ≤ a → a ≤ c.chBase.toNat + 63 → ∃ k w h, k ≤ 15 ∧ (addrOf c k w h).toNat = a)

/-! ### Codec -/

/-- R80: a count of 4096 or more in any count operand of any command raises INVALID_COUNT with no other effect (SETFON and
ENC with the flag included), whatever the gate is; with every count at most 4095 no command ends with INVALID_COUNT. -/
def Obligations.CountsAreChecked : Prop :=
  ∀ (i : Instr) (s : State), (∀ ch, i.channel? = some ch → ch ≤ 16) →
    ((∃ c ∈ i.counts s.operands, 4095 < c.toNat) → Delivers i s { status := .invalidCount }) ∧
    ((∀ c ∈ i.counts s.operands, c.toNat ≤ 4095) →
      ∃ t r, exec i s = .next t ∧ t.res = some r ∧ r.status ≠ .invalidCount)

/-- R81: with the flag the pair is (0x00, 0x10) whatever the count; without it the low byte is the count's low 8 bits and the
high byte its bits 11:8, with bits 7:4 zero. -/
def Obligations.EncPacksCountAndFlag : Prop :=
  ∀ c : Word, c.toNat ≤ 4095 →
    encPair c true = (0x00#8, 0x10#8) ∧
    (encPair c false).1.toNat = c.toNat % 256 ∧ (encPair c false).2.toNat = c.toNat / 256 ∧
    (encPair c false).2.toNat < 16

/-- R82: of any two bytes the count is the low byte plus 256 times the low nibble of the high byte, and the flag is bit 4 of
the high byte; bits 7:5 are ignored. -/
def Obligations.DecUnpacksAnyTwoBytes : Prop :=
  ∀ l h : Byte, (decPair l h).1.toNat = l.toNat + 256 * (h.toNat % 16) ∧ (decPair l h).2 = decide (h.toNat / 16 % 2 = 1)

/-- R83: ENC has the word 0x0002 | full<<11; it delivers the pair of a count at most 4095, and raises INVALID_COUNT above
that whatever the flag is. -/
def Obligations.EncDeliversThePair : Prop :=
  ∀ (s : State) (full : Bool),
    HasWord (.enc full) (if full = true then 0x0802#16 else 0x0002#16) ∧
    (s.operands.a.toNat ≤ 4095 → Delivers (.enc full) s
      { status := .ok
        rlo := some (if full then 0x00#8 else lowByte s.operands.a)
        rhi := some (if full then 0x10#8 else highByte s.operands.a) }) ∧
    (4095 < s.operands.a.toNat → Delivers (.enc full) s { status := .invalidCount })

/-- R84: DEC has the word 0x0003; it delivers the count and the flag of any two bytes and changes nothing else. -/
def Obligations.DecDeliversCountAndFlag : Prop :=
  HasWord .dec 0x0003#16 ∧ ∀ s : State,
    Delivers .dec s { status := .ok, rcount := some (countOf s.operands.l s.operands.h), rfull := some (flagOf s.operands.h) }

/-- R85 (a) to (e): the laws of the codec, on the valid pairs. -/
def Obligations.CodecLaws : Prop :=
  (∀ c : Word, c.toNat ≤ 4095 → decPair (encPair c false).1 (encPair c false).2 = (c, false)) ∧
  (∀ c : Word, c.toNat ≤ 4095 → decPair (encPair c true).1 (encPair c true).2 = (0#16, true)) ∧
  (∀ (c : Word) (f : Bool), c.toNat ≤ 4095 → (encPair c f).2.toNat / 32 = 0) ∧
  (∀ c c' : Word, c.toNat ≤ 4095 → c'.toNat ≤ 4095 → encPair c false = encPair c' false → c = c') ∧
  (∀ c : Word, c.toNat ≤ 4095 → encPair c false ≠ encPair 0#16 true ∧ encPair c true = encPair 0#16 true) ∧
  (∀ l h : Byte, h.toNat / 16 = 0 → encPair (decPair l h).1 (decPair l h).2 = (l, h))

/-! ### The gate -/

/-- R90: EnsureGate does nothing when the gate is Set; else it issues the one mode-1 write and sets the gate only after Ok, or
raises with the gate still Unset; every bus command whose checks pass raises that error before its payload, and CHINT, ADDR,
ENC and DEC neither run it nor depend on the gate. -/
def Obligations.GateRule : Prop :=
  (∀ s g : State, ensureGate s = (.ok (), g) ↔ GatePassed s g) ∧
  (∀ (s g : State) (e : BusErr), ensureGate s = (.error e, g) ↔ GateFailed s e g) ∧
  (∀ (i : Instr) (s g : State) (e : BusErr), i.isBus = true → i.ChecksPass s.operands → GateFailed s e g →
    exec i s = .next { g with opd := none, res := some { status := .busError, berr := some e } }) ∧
  (∀ (i : Instr) (s t : State) (b : Bool), i.isBus = false → exec i s = .next t →
    t.ai = s.ai ∧ t.log = s.log ∧ exec i { s with ai := b } = .next { t with ai := b })

/-- 10_state.md section 1, "Writer: EnsureGate only, and only 0 -> 1; reset writes 0": over every step, a Set gate stays Set
unless the host resets the block, and an Unset gate becomes Set only by a successful mode-1 write that the step logs first of
all. -/
def Obligations.OnlyTheGateWriteSetsTheGate : Prop :=
  ∀ s t : State, step s = .next t →
    (s.ai = true → s.inputs.head? ≠ some .reset → t.ai = true) ∧
    (s.inputs.head? = some .reset → t.ai = false) ∧
    (s.ai = false → t.ai = true → ∃ more, t.log = s.log ++ gateEntry s.cfg :: more)

/-- What the spec derives in 43_autoincrement_gate.md (the sections on "once per lifetime" and on a payload that fails): over
any run that takes no reset (one may still be to come), the successful mode-1 writes are at most one, exactly one if the gate became Set and none if it was
Set at the start, and a Set gate stays Set. -/
def Obligations.GateWriteSucceedsOncePerLifetime : Prop :=
  ∀ (k : Nat) (s t : State), .reset ∉ s.inputs.take k → runSteps k s = .next t →
    gateWrites s.cfg t.log + s.ai.toNat = gateWrites s.cfg s.log + t.ai.toNat ∧ (s.ai = true → t.ai = true)

/-- What the spec derives in 43_autoincrement_gate.md ("always precedes any multi-byte register write"): in any run that
takes no reset from a state whose gate is Unset, among the transactions of the run every one that is not a mode-1 write comes after a
successful mode-1 write. -/
def Obligations.GateWritePrecedesEveryPayload : Prop :=
  ∀ (k : Nat) (s t : State), .reset ∉ s.inputs.take k → s.ai = false → runSteps k s = .next t →
    ∃ new, t.log = s.log ++ new ∧ GateFirst s.cfg new

/-! ### The bus commands -/

/-- R95: an illegal word ends the command before anything else; then a bad channel code, then a bad count, each with no
transaction and no state written; then a bus command runs the gate and exactly one payload transaction, its own, and raises
on an error or delivers; a bus command that ends with OK has logged its payload, after the mode-1 write when the gate was
Unset, and nothing else; a command that uses no bus issues no transaction and writes no state. -/
def Obligations.BusSkeleton : Prop :=
  (∀ (s : State) (c : Command) (rest : List HostInput) (e : Illegal), s.cfg.WF → s.inputs = .command c :: rest →
    decode c.cw = .error e →
    step s = .next { s with inputs := rest, opd := none, res := some { status := .illegalCommand } }) ∧
  ∀ (i : Instr) (s : State),
    (∀ ch, i.channel? = some ch → 16 < ch → Delivers i s { status := .invalidChannel }) ∧
    ((∀ ch, i.channel? = some ch → ch ≤ 16) → (∃ c ∈ i.counts s.operands, 4095 < c.toNat) →
      Delivers i s { status := .invalidCount }) ∧
    (i.isBus = true → i.ChecksPass s.operands →
      ∃ p r, i.payload? s.cfg s.operands = some p ∧ (∀ d, (r d).status = .ok) ∧ RunsPayload i s p r) ∧
    (∀ t r, i.isBus = true → exec i s = .next t → t.res = some r → r.status = .ok →
      t.ai = true ∧ ∃ p a, i.payload? s.cfg s.operands = some p ∧ (∀ e, a ≠ .err e) ∧ Fits p a ∧
        t.log = s.log ++ gateEntries s ++ [{ req := p, resp := a }]) ∧
    (∀ t, i.isBus = false → exec i s = .next t → t = { s with opd := none, res := t.res })

/-- R96 and R97: SETON and SETOFF have the words 0x0004 | ch<<4 and 0x0005 | ch<<4; they check the channel, then the count,
then run the gate and one 3-byte write of the count with the flag clear to the on or the off pair; any error ends the command
where it is raised. -/
def Obligations.SetOnAndSetOffProgramTheCount : Prop :=
  ∀ (s : State) (ch : Nat),
    (ch < 32 → HasWord (.seton ch) (chWord 0x0004#16 ch) ∧ HasWord (.setoff ch) (chWord 0x0005#16 ch)) ∧
    (16 < ch → Delivers (.seton ch) s { status := .invalidChannel } ∧ Delivers (.setoff ch) s { status := .invalidChannel }) ∧
    (ch ≤ 16 → 4095 < s.operands.a.toNat →
      Delivers (.seton ch) s { status := .invalidCount } ∧ Delivers (.setoff ch) s { status := .invalidCount }) ∧
    (ch ≤ 16 → s.operands.a.toNat ≤ 4095 →
      RunsPayload (.seton ch) s
        (.write s.cfg.devAddr [addrOf s.cfg ch .on .low, lowByte s.operands.a, highByte s.operands.a]) (fun _ => { status := .ok }) ∧
      RunsPayload (.setoff ch) s
        (.write s.cfg.devAddr [addrOf s.cfg ch .off .low, lowByte s.operands.a, highByte s.operands.a]) (fun _ => { status := .ok }))

/-- R98: SETFON has the word 0x0006 | ch<<4; it checks the channel and the count, then writes (0x00, 0x10) to the on pair
whatever the count is. -/
def Obligations.SetFullOnWritesTheFlag : Prop :=
  ∀ (s : State) (ch : Nat),
    (ch < 32 → HasWord (.setfon ch) (chWord 0x0006#16 ch)) ∧
    (16 < ch → Delivers (.setfon ch) s { status := .invalidChannel }) ∧
    (ch ≤ 16 → 4095 < s.operands.a.toNat → Delivers (.setfon ch) s { status := .invalidCount }) ∧
    (ch ≤ 16 → s.operands.a.toNat ≤ 4095 →
      RunsPayload (.setfon ch) s (.write s.cfg.devAddr [addrOf s.cfg ch .on .low, 0x00#8, 0x10#8])
        (fun _ => { status := .ok }))

/-- R99: SETFOFF has the word 0x0007 | ch<<4; it checks the channel only, then writes (0x00, 0x10) to the off pair, for any
operand record. -/
def Obligations.SetFullOffWritesTheFlag : Prop :=
  ∀ (s : State) (ch : Nat),
    (ch < 32 → HasWord (.setfoff ch) (chWord 0x0007#16 ch)) ∧
    (16 < ch → Delivers (.setfoff ch) s { status := .invalidChannel }) ∧
    (ch ≤ 16 → RunsPayload (.setfoff ch) s (.write s.cfg.devAddr [addrOf s.cfg ch .off .low, 0x00#8, 0x10#8])
        (fun _ => { status := .ok }))

/-- R100 and R101: GETON and GETOFF have the words 0x0008 | ch<<4 and 0x0009 | ch<<4; they check the channel, run the gate,
write the low address of the on or the off pair and read two bytes, and deliver the raw count and the flag of those two
bytes. -/
def Obligations.GetOnAndGetOffReadThePair : Prop :=
  ∀ (s : State) (ch : Nat),
    (ch < 32 → HasWord (.geton ch) (chWord 0x0008#16 ch) ∧ HasWord (.getoff ch) (chWord 0x0009#16 ch)) ∧
    (16 < ch → Delivers (.geton ch) s { status := .invalidChannel } ∧ Delivers (.getoff ch) s { status := .invalidChannel }) ∧
    (ch ≤ 16 →
      RunsPayload (.geton ch) s (.writeRead s.cfg.devAddr [addrOf s.cfg ch .on .low] 2)
        (fun d => { status := .ok, rcount := some (countOf d[0] d[1]), rfull := some (flagOf d[1]) }) ∧
      RunsPayload (.getoff ch) s (.writeRead s.cfg.devAddr [addrOf s.cfg ch .off .low] 2)
        (fun d => { status := .ok, rcount := some (countOf d[0] d[1]), rfull := some (flagOf d[1]) }))

/-- R102 and R103: GETFON and GETFOFF have the words 0x000A | ch<<4 and 0x000B | ch<<4; they check the channel, issue the
transaction of GETON and GETOFF and deliver the flag only. -/
def Obligations.GetFullOnAndGetFullOffReadTheFlag : Prop :=
  ∀ (s : State) (ch : Nat),
    (ch < 32 → HasWord (.getfon ch) (chWord 0x000A#16 ch) ∧ HasWord (.getfoff ch) (chWord 0x000B#16 ch)) ∧
    (16 < ch →
      Delivers (.getfon ch) s { status := .invalidChannel } ∧ Delivers (.getfoff ch) s { status := .invalidChannel }) ∧
    (ch ≤ 16 →
      RunsPayload (.getfon ch) s (.writeRead s.cfg.devAddr [addrOf s.cfg ch .on .low] 2)
        (fun d => { status := .ok, rfull := some (flagOf d[1]) }) ∧
      RunsPayload (.getfoff ch) s (.writeRead s.cfg.devAddr [addrOf s.cfg ch .off .low] 2)
        (fun d => { status := .ok, rfull := some (flagOf d[1]) }))

/-- R104: SETONOFF has the word 0x000C | ch<<4; it checks the channel and both counts, then writes both pairs of the channel,
flags clear, in one 5-byte write. -/
def Obligations.SetOnOffProgramsBothCounts : Prop :=
  ∀ (s : State) (ch : Nat),
    (ch < 32 → HasWord (.setonoff ch) (chWord 0x000C#16 ch)) ∧
    (16 < ch → Delivers (.setonoff ch) s { status := .invalidChannel }) ∧
    (ch ≤ 16 → 4095 < s.operands.a.toNat ∨ 4095 < s.operands.b.toNat → Delivers (.setonoff ch) s { status := .invalidCount }) ∧
    (ch ≤ 16 → s.operands.a.toNat ≤ 4095 → s.operands.b.toNat ≤ 4095 →
      RunsPayload (.setonoff ch) s
        (.write s.cfg.devAddr
          [addrOf s.cfg ch .on .low, lowByte s.operands.a, highByte s.operands.a, lowByte s.operands.b, highByte s.operands.b])
        (fun _ => { status := .ok }))

/-- R105: with `ch = 16` every single-channel bus command sends its one payload to ALL_BASE + 2*which, with `ch = k` in 0..15 to
CH_BASE + 4k + 2*which, and otherwise behaves exactly the same: the same 3-byte or 5-byte write or the same 1-byte write and
2-byte read but for the address byte, the same result of the same data, the same gate, the same INVALID_COUNT. -/
def Obligations.BroadcastOnlyMovesTheAddress : Prop :=
  ∀ (f : Nat → Instr) (o n : Nat) (s : State) (k : Nat),
    (f, o, n) ∈ [(Instr.seton, 0, 2), (Instr.setoff, 2, 2), (Instr.setfon, 0, 2), (Instr.setfoff, 2, 2), (Instr.geton, 0, 0),
      (Instr.getoff, 2, 0), (Instr.getfon, 0, 0), (Instr.getfoff, 2, 0), (Instr.setonoff, 0, 4)] → s.cfg.WF → k ≤ 15 →
    ((∃ c ∈ (f k).counts s.operands, 4095 < c.toNat) →
      Delivers (f 16) s { status := .invalidCount } ∧ Delivers (f k) s { status := .invalidCount }) ∧
    ((∀ c ∈ (f k).counts s.operands, c.toNat ≤ 4095) →
      ∃ (a b : Byte) (p q : Request) (r : Vector Byte 64 → Result),
        a.toNat = s.cfg.allBase.toNat + o ∧ b.toNat = s.cfg.chBase.toNat + 4 * k + o ∧
        ((n ≠ 0 ∧ ∃ rest, rest.length = n ∧ p = .write s.cfg.devAddr (a :: rest) ∧ q = .write s.cfg.devAddr (b :: rest)) ∨
         (n = 0 ∧ p = .writeRead s.cfg.devAddr [a] 2 ∧ q = .writeRead s.cfg.devAddr [b] 2)) ∧
        RunsPayload (f 16) s p r ∧ RunsPayload (f k) s q r)

/-- R110, with the start address CH_BASE: SETALL has the word 0x000D; it checks all 32 counts before anything else, then
writes the 16 channel blocks in channel order, flags clear, in one 65-byte write from channel 0's on-low register. -/
def Obligations.SetAllProgramsEveryChannel : Prop :=
  HasWord .setall 0x000D#16 ∧ ∀ s : State,
    ((∃ k : Fin 16, 4095 < (s.operands.von[k]).toNat ∨ 4095 < (s.operands.voff[k]).toNat) →
      Delivers .setall s { status := .invalidCount }) ∧
    ((∀ k : Fin 16, (s.operands.von[k]).toNat ≤ 4095 ∧ (s.operands.voff[k]).toNat ≤ 4095) →
      RunsPayload .setall s (.write s.cfg.devAddr (s.cfg.chBase :: bulkFrame s.operands)) (fun _ => { status := .ok }))

/-- R111, with the start address CH_BASE: GETALL has the word 0x000E; it runs the gate, writes channel 0's on-low address and
reads 64 bytes; on OK it delivers, for each channel k, the counts of bytes 4k, 4k+1 and 4k+2, 4k+3 and no flag. -/
def Obligations.GetAllReadsEveryChannel : Prop :=
  HasWord .getall 0x000E#16 ∧ ∀ s : State, RunsPayload .getall s (.writeRead s.cfg.devAddr [s.cfg.chBase] 64)
    (fun d =>
      { status := .ok
        ron := some (Vector.ofFn fun k : Fin 16 => countOf d[4 * k.val] d[4 * k.val + 1])
        roff := some (Vector.ofFn fun k : Fin 16 => countOf d[4 * k.val + 2] d[4 * k.val + 3]) })

/-! ### Transactions -/

/-- R34: a submitted request is logged, after all earlier ones, with a response of its shape (Ok to a write, exactly n bytes to
a read of n that is no longer than the longest read), or with the error the environment chose; the answer is used up. -/
def Obligations.TransportAnswersInShape : Prop :=
  (∀ (r : Request) (s : State), (s.submit r).log = s.log ++ [{ req := r, resp := respond s.peek r }] ∧
    (s.submit r).ai = s.ai ∧ (s.submit r).res = s.res) ∧
  (∀ (a : Answer) (dev : DevAddr) (bytes : List Byte) (n : Nat), n ≤ 64 →
    Fits (.write dev bytes) (respond a (.write dev bytes)) ∧ Fits (.writeRead dev bytes n) (respond a (.writeRead dev bytes n))) ∧
  (∀ (s : State) (a : Answer) (rest : List Answer), s.answers = a :: rest →
    s.peek = a ∧ s.advance = { s with answers := rest }) ∧
  (∀ (s : State), s.answers = [] → s.peek = Config.freeAnswer s.draws ∧ s.advance = { s with draws := s.draws + 1 })

/-- R35 and R31: every transaction a command issues is the 2-byte gate write or has the one shape the table gives the command's
payload, and goes to the one device address. -/
def Obligations.TransactionsHaveTheTableShapes : Prop :=
  ∀ (i : Instr) (s t : State), exec i s = .next t →
    ∃ new, t.log = s.log ++ new ∧ ∀ x ∈ new,
      (i.isBus = true ∧ x.req = .write s.cfg.devAddr [s.cfg.mode1Addr, 0x20#8]) ∨ i.PayloadShape s.cfg.devAddr x.req

/-- 20_memory.md sections 1 and 4, and what the spec derives there on alignment: under a well-formed configuration every
transaction that a step logs (a command's in particular, from any state) is the gate write, which touches mode-1 only, or
touches registers of the channel blocks and the broadcast block only, from the low byte of a pair on. -/
def Obligations.RequestsStayInTheAddressMap : Prop :=
  (∀ (i : Instr) (s t : State), s.cfg.WF → exec i s = .next t →
    ∃ new, t.log = s.log ++ new ∧ ∀ x ∈ new, MappedAndAligned s.cfg x.req) ∧
  (∀ s t : State, step s = .next t → ∃ new, t.log = s.log ++ new ∧ ∀ x ∈ new, MappedAndAligned s.cfg x.req)

/-- R21 "No value computed by one command is held for a later command" and R36 "a read is never served from a copy held by the
block", "repetition does not collapse or dedupe": what a command does, does not depend on the log or on an earlier result. -/
def Obligations.HistoryDoesNotMatter : Prop :=
  ∀ (i : Instr) (s t : State) (log : List Transaction) (res : Option Result), exec i s = .next t →
    ∃ new, t.log = s.log ++ new ∧ exec i { s with log := log, res := res } = .next { t with log := log ++ new }

/-- What every command leaves unchanged: the parameters and the host's list; the operand port is free again (R26); the log only
grows, by at most two entries; scripted answers are only used up from the front; the gate never goes back to Unset. -/
def Obligations.CommandFrame : Prop :=
  ∀ (i : Instr) (s t : State), exec i s = .next t →
    t.cfg = s.cfg ∧ t.opd = none ∧ t.inputs = s.inputs ∧ (s.ai = true → t.ai = true) ∧
    (∃ new, t.log = s.log ++ new ∧ new.length ≤ 2 ∧ t.answers = s.answers.drop new.length ∧
      t.draws = s.draws + (new.length - s.answers.length)) ∧
    (i.isBus = false → t = { s with opd := none, res := t.res })

/-! ### Results and errors -/

/-- R53: every command completes and delivers a result; on OK it holds exactly the fields the table lists for the command, and
on any other status no field but the error word of BUS_ERROR. -/
def Obligations.ResultsHoldTheListedFields : Prop :=
  ∀ (i : Instr) (s : State), ∃ t r, exec i s = .next t ∧ t.res = some r ∧ r.Legal ∧ (r.status = .ok → i.DeliversFields r)

/-- R120: the status codes, and the cause and the raiser of each: INVALID_CHANNEL only from CHINT's integer outside 0..15 or a
channel code above 16, INVALID_COUNT only from a count operand above 4095, BUS_ERROR only from a bus command, with the error
word of a transaction the command logged; an error word is recorded with BUS_ERROR only; a presented word raises
ILLEGAL_COMMAND exactly when `op = 0xF` or `rsv != 0`. -/
def Obligations.StatusCodesAndTheirRaisers : Prop :=
  (statusCode .ok = 0#3 ∧ statusCode .invalidChannel = 1#3 ∧ statusCode .invalidCount = 2#3 ∧
    statusCode .busError = 3#3 ∧ statusCode .illegalCommand = 4#3) ∧
  (∀ (i : Instr) (s t : State) (r : Result), exec i s = .next t → t.res = some r →
    (r.status = .invalidChannel → (i = .chint false ∧ 15 < s.operands.n.toNat) ∨
      (i = .chint true ∧ (s.operands.n.toInt < 0 ∨ 15 < s.operands.n.toInt)) ∨ ∃ ch, i.channel? = some ch ∧ 16 < ch) ∧
    (r.status = .invalidCount → ∃ c ∈ i.counts s.operands, 4095 < c.toNat) ∧
    (r.status = .busError → i.isBus = true ∧
      ∃ e x new, r.berr = some e ∧ t.log = s.log ++ new ∧ x ∈ new ∧ x.resp = .err e) ∧
    (r.status ≠ .busError → r.berr = none)) ∧
  (∀ (s : State) (c : Command) (rest : List HostInput), s.cfg.WF → s.inputs = .command c :: rest →
    ∃ t r, step s = .next t ∧ t.res = some r ∧
      (r.status = .illegalCommand ↔ c.cw.toNat % 16 = 15 ∨ c.cw.toNat / 8192 ≠ 0))

/-- The table the spec derives in 60_exceptions.md of what each error leaves behind: after INVALID_CHANNEL or INVALID_COUNT
nothing is logged and the gate is unchanged; after BUS_ERROR the command's last transaction failed with the delivered
error word, and it is either the mode-1 write with the gate still Unset or the payload with the gate Set. -/
def Obligations.ErrorsLeaveBehind : Prop :=
  ∀ (i : Instr) (s t : State) (r : Result), exec i s = .next t → t.res = some r →
    (r.status = .invalidChannel ∨ r.status = .invalidCount → t = { s with opd := none, res := some r }) ∧
    (r.status = .busError → ∃ e, r.berr = some e ∧
      ((s.ai = false ∧ t.ai = false ∧ t.log = s.log ++ [{ req := gateRequest s.cfg, resp := .err e }]) ∨
       ∃ p, i.payload? s.cfg s.operands = some p ∧ t.ai = true ∧
        t.log = s.log ++ gateEntries s ++ [{ req := p, resp := .err e }])) ∧
    r.status ≠ .illegalCommand

/-- R123: of the errors that apply to a presented command the first of ILLEGAL_COMMAND, INVALID_CHANNEL, INVALID_COUNT,
BUS_ERROR from the mode-1 write, BUS_ERROR from the payload is delivered, and OK when none applies (the INVALID_CHANNEL of
CHINT's integer, which reads no `ch`, stands in the same place). -/
def Obligations.FirstErrorInOrderIsDelivered : Prop :=
  ∀ (s : State) (c : Command) (rest : List HostInput), s.cfg.WF → s.inputs = .command c :: rest →
    ∃ t r, step s = .next t ∧ t.res = some r ∧
      match decode c.cw with
      | .error _ => r = { status := .illegalCommand }
      | .ok i =>
        let badChannel := (∃ ch, i.channel? = some ch ∧ 16 < ch) ∨
          (i = .chint false ∧ 15 < c.opd.n.toNat) ∨ (i = .chint true ∧ (c.opd.n.toInt < 0 ∨ 15 < c.opd.n.toInt))
        let badCount := ∃ x ∈ i.counts c.opd, 4095 < x.toNat
        (badChannel → r = { status := .invalidChannel }) ∧
        (¬ badChannel → badCount → r = { status := .invalidCount }) ∧
        (¬ badChannel → ¬ badCount → i.isBus = false → r.status = .ok) ∧
        (¬ badChannel → ¬ badCount → i.isBus = true →
          (∀ e, s.ai = false → s.peek = .err e → r = { status := .busError, berr := some e }) ∧
          (∀ g, GatePassed s g →
            (∀ e, g.peek = .err e → r = { status := .busError, berr := some e }) ∧
            (∀ d, g.peek = .ok d → r.status = .ok)))

/-! ### Invariant -/

/-- From every state that meets the invariant, every step (a command, an illegal word, a reset, an idle step) gives a state
that meets it. -/
def Obligations.StepKeepsTheInvariant : Prop :=
  ∀ s t : State, Inv s → step s = .next t → Inv t

/-- The reset state meets the invariant, for every well-formed configuration and for the defaults. -/
def Obligations.ResetMeetsTheInvariant : Prop :=
  (∀ c : Config, c.WF → Inv (State.resetWith c)) ∧ Inv State.reset

/-! ### With a register file behind the transport -/

/-- The source's end-to-end example (95_test_vectors.md S6 and P1), for every channel and every two counts, over the test
fixture of decision D19 (which is no part of the block, notes/assumptions/14.md): after SETONOFF on channel k or on All ended
with OK, GETON k and GETOFF k answered by the fixture deliver the counts programmed, flags clear. -/
def Obligations.ProgrammedCountsReadBack : Prop :=
  ∀ (s t : State) (rf : RegFile) (ch k : Nat), s.cfg.WF → k ≤ 15 → (ch = k ∨ ch = 16) →
    exec (.setonoff ch) s = .next t → t.res = some { status := .ok } →
    ∀ new, t.log = s.log ++ new →
      (t.peek = rfAnswer (rfReplay s.cfg new rf) (addrOf s.cfg k .on .low) →
        ∃ u, exec (.geton k) t = .next u ∧ u.res = some { status := .ok, rcount := some s.operands.a, rfull := some false }) ∧
      (t.peek = rfAnswer (rfReplay s.cfg new rf) (addrOf s.cfg k .off .low) →
        ∃ u, exec (.getoff k) t = .next u ∧ u.res = some { status := .ok, rcount := some s.operands.b, rfull := some false })

/-- As for one channel, for the bulk commands (95_test_vectors.md P5, fixture of D19): after SETALL ended with OK, GETALL
answered by the fixture delivers the 32 counts programmed, GETON of any channel delivers that channel's on
count and GETOFF its off count, flags clear. -/
def Obligations.BulkProgrammedCountsReadBack : Prop :=
  ∀ (s t : State) (rf : RegFile), s.cfg.WF → exec .setall s = .next t → t.res = some { status := .ok } →
    ∀ new, t.log = s.log ++ new →
      (t.peek = rfAnswer (rfReplay s.cfg new rf) s.cfg.chBase →
        ∃ u, exec .getall t = .next u ∧ u.res = some { status := .ok, ron := some s.operands.von, roff := some s.operands.voff }) ∧
      (∀ k : Fin 16, t.peek = rfAnswer (rfReplay s.cfg new rf) (addrOf s.cfg k .on .low) →
        ∃ u, exec (.geton k) t = .next u ∧
          u.res = some { status := .ok, rcount := some s.operands.von[k], rfull := some false }) ∧
      (∀ k : Fin 16, t.peek = rfAnswer (rfReplay s.cfg new rf) (addrOf s.cfg k .off .low) →
        ∃ u, exec (.getoff k) t = .next u ∧
          u.res = some { status := .ok, rcount := some s.operands.voff[k], rfull := some false })
end

