-- ==== Sys2Proof/Laws/Codec.lean ====
section
/-! SUPPORT. The codec and the multiplexer by arithmetic: one lemma per function, for proofs to cite. -/

namespace Sys2Proof.Machine

@[simp] theorem fullByte_eq : fullByte = 0x10#8 := rfl

theorem encPair_full (c : Word) : encPair c true = (0x00#8, 0x10#8) := rfl

theorem encPair_clear {c : Word} (h : c.toNat ≤ 4095) : encPair c false = (lowByte c, highByte c) := by
  have hlow : (c &&& 0xFF#16).toNat = c.toNat % 256 := by
    rw [BitVec.toNat_and]; exact Nat.and_two_pow_sub_one_eq_mod _ 8
  have hhigh : ((c >>> 8) &&& 0x0F#16).toNat = c.toNat / 256 % 16 := by
    rw [BitVec.toNat_and, BitVec.toNat_ushiftRight, Nat.shiftRight_eq_div_pow]
    exact Nat.and_two_pow_sub_one_eq_mod _ 4
  simp only [encPair, Bool.false_eq_true, if_false, Prod.mk.injEq]
  constructor <;> apply BitVec.eq_of_toNat_eq
  · simp only [BitVec.toNat_setWidth, hlow, lowByte, BitVec.toNat_ofNat]
  · simp only [BitVec.toNat_setWidth, hhigh, highByte, BitVec.toNat_ofNat]
    omega

theorem decPair_eq (l h : Byte) : decPair l h = (countOf l h, flagOf h) := by
  have hnib : (h &&& 0x0F#8).toNat = h.toNat % 16 := by
    rw [BitVec.toNat_and]; exact Nat.and_two_pow_sub_one_eq_mod _ 4
  have hl := l.isLt
  have hcount : (l.setWidth 16 ||| ((h &&& 0x0F#8).setWidth 16 <<< 8)).toNat = l.toNat + 256 * (h.toNat % 16) := by
    rw [BitVec.toNat_or, BitVec.toNat_shiftLeft, BitVec.toNat_setWidth, BitVec.toNat_setWidth, hnib, Nat.shiftLeft_eq,
      Nat.or_comm]
    have e : h.toNat % 16 % 2 ^ 16 * 2 ^ 8 % 2 ^ 16 = 2 ^ 8 * (h.toNat % 16) := by omega
    rw [e, ← Nat.two_pow_add_eq_or_of_lt (by omega)]
    omega
  simp only [decPair, Prod.mk.injEq]
  constructor
  · apply BitVec.eq_of_toNat_eq
    simp only [hcount, countOf, BitVec.toNat_ofNat]
    omega
  · simp [flagOf, BitVec.getLsbD, Nat.testBit_eq_decide_div_mod_eq]

theorem countOf_toNat (l h : Byte) : (countOf l h).toNat = l.toNat + 256 * (h.toNat % 16) := by
  have := l.isLt
  simp only [countOf, BitVec.toNat_ofNat]
  omega

theorem countOf_le (l h : Byte) : (countOf l h).toNat ≤ 4095 := by
  have := l.isLt
  rw [countOf_toNat]
  omega

/-- Packing a count and unpacking the two bytes gives the count back, flag clear. -/
theorem countOf_bytes {c : Word} (h : c.toNat ≤ 4095) :
    countOf (lowByte c) (highByte c) = c ∧ flagOf (highByte c) = false := by
  constructor
  · apply BitVec.eq_of_toNat_eq
    rw [countOf_toNat]
    simp only [lowByte, highByte, BitVec.toNat_ofNat]
    omega
  · simp only [flagOf, highByte, BitVec.toNat_ofNat, decide_eq_false_iff_not]
    omega

@[simp] theorem bulkFrame_length (o : Operands) : (bulkFrame o).length = 64 := by
  simp [bulkFrame, List.length_flatMap]

/-- The bulk payload the machine sends is the loop of R110 when all counts are in range. -/
theorem bulkBytes_eq (o : Operands) (hon : ∀ c ∈ o.von.toList, c.toNat ≤ 4095) (hoff : ∀ c ∈ o.voff.toList, c.toNat ≤ 4095) :
    bulkBytes o.von o.voff = bulkFrame o := by
  have hz : List.zipWith blockBytes o.von.toList o.voff.toList =
      (List.finRange 16).map fun k => blockBytes o.von[k.val] o.voff[k.val] := by
    apply List.ext_getElem <;> simp
  unfold bulkBytes bulkFrame
  rw [hz, List.flatMap_def]
  congr 1
  apply List.map_congr_left
  intro k _
  have h1 := hon o.von[k.val] (by simp)
  have h2 := hoff o.voff[k.val] (by simp)
  simp [blockBytes, pairBytes, encPair_clear h1, encPair_clear h2]

/-- AddrOf as a number under a well-formed configuration: nothing is truncated. -/
theorem addrOf_toNat {c : Config} (hc : c.WF) {ch : Nat} (h : ch ≤ 16) (w : Which) (b : Half) :
    (addrOf c ch w b).toNat = blockBase c ch + 2 * whichOffset w + halfOffset b := by
  obtain ⟨h1, h2, -, -, -⟩ := hc
  have hb : blockBase c ch + 3 ≤ 255 := by
    simp only [blockBase, stride]
    split <;> omega
  simp only [addrOf, BitVec.toNat_ofNat]
  cases w <;> cases b <;> simp only [whichOffset, halfOffset] <;> omega

/-- The bulk start address is CH_BASE (R112). -/
@[simp] theorem addrOf_bulk (c : Config) : addrOf c 0 .on .low = c.chBase := by
  simp [addrOf, blockBase, whichOffset, halfOffset]

end Sys2Proof.Machine
end

