-- ==== Sys2Proof/Laws/Decode.lean ====
section
/-! SUPPORT. The word's fields by arithmetic, and which words the decoder refuses. -/

namespace Sys2Proof

theorem opField_toNat (w : Word) : (opField w).toNat = w.toNat % 16 := by
  simp [opField, BitVec.extractLsb, BitVec.extractLsb']

theorem chField_toNat (w : Word) : (chField w).toNat = w.toNat / 16 % 32 := by
  simp [chField, BitVec.extractLsb, BitVec.extractLsb', Nat.shiftRight_eq_div_pow]

theorem rsvField_toNat (w : Word) : (rsvField w).toNat = w.toNat / 8192 := by
  have := w.isLt
  simp only [rsvField, BitVec.extractLsb, BitVec.extractLsb', BitVec.toNat_ofNat, Nat.shiftRight_eq_div_pow]
  omega

theorem rsvField_eq_zero (w : Word) : rsvField w = 0#3 ↔ w.toNat / 8192 = 0 := by
  rw [← rsvField_toNat, ← BitVec.toNat_inj]; rfl

theorem getLsbD_eq_div (w : Word) (k : Nat) : w.getLsbD k = decide (w.toNat / 2 ^ k % 2 = 1) := by
  simp [BitVec.getLsbD, Nat.testBit_eq_decide_div_mod_eq]

theorem decode_reservedBits {w : Word} (h : w.toNat / 8192 ≠ 0) : decode w = .error .reservedBits := by
  rw [decode, if_neg (mt (rsvField_eq_zero w).mp h)]

theorem decode_eq_decodeOp {w : Word} (h : w.toNat / 8192 = 0) : decode w = decodeOp w := by
  rw [decode, if_pos ((rsvField_eq_zero w).mpr h)]

theorem decode_reservedOpcode {w : Word} (h : w.toNat / 8192 = 0) (h15 : w.toNat % 16 = 15) :
    decode w = .error .reservedOpcode := by
  rw [decode_eq_decodeOp h]
  simp only [decodeOp, opField_toNat, h15]

/-- The mask of the opcode table, by arithmetic: `rsv` and `op` (R59). -/
theorem opcodeMask_toNat (w : Word) : (w &&& 0xE00F#16).toNat = 8192 * (w.toNat / 8192) + w.toNat % 16 := by
  have hlow : (w &&& 0x000F#16).toNat = w.toNat % 16 := by
    rw [BitVec.toNat_and]; exact Nat.and_two_pow_sub_one_eq_mod _ 4
  have hsplit : w &&& 0xE00F#16 = (w >>> 13 <<< 13) ||| (w &&& 0x000F#16) := by
    ext k hk
    interval_cases k <;> simp
  rw [hsplit, BitVec.toNat_or, BitVec.toNat_shiftLeft, BitVec.toNat_ushiftRight, hlow, Nat.shiftLeft_eq,
    Nat.shiftRight_eq_div_pow]
  have := w.isLt
  have e : w.toNat / 2 ^ 13 * 2 ^ 13 % 2 ^ 16 = 2 ^ 13 * (w.toNat / 8192) := by omega
  rw [e, ← Nat.two_pow_add_eq_or_of_lt (by omega)]

end Sys2Proof
end

