-- ==== Sys2Proof/Laws/State.lean ====
section
/-! SUPPORT. One lemma per field per update of State, so that no proof unfolds a record update. -/

namespace Sys2Proof.Machine

/-! ### Delivering a result, raising an error, setting the gate -/

@[simp] theorem State.deliver_cfg (r : Result) (s : State) : (s.deliver r).cfg = s.cfg := rfl
@[simp] theorem State.deliver_ai (r : Result) (s : State) : (s.deliver r).ai = s.ai := rfl
@[simp] theorem State.deliver_opd (r : Result) (s : State) : (s.deliver r).opd = none := rfl
@[simp] theorem State.deliver_res (r : Result) (s : State) : (s.deliver r).res = some r := rfl
@[simp] theorem State.deliver_log (r : Result) (s : State) : (s.deliver r).log = s.log := rfl
@[simp] theorem State.deliver_inputs (r : Result) (s : State) : (s.deliver r).inputs = s.inputs := rfl
@[simp] theorem State.deliver_answers (r : Result) (s : State) : (s.deliver r).answers = s.answers := rfl
@[simp] theorem State.deliver_draws (r : Result) (s : State) : (s.deliver r).draws = s.draws := rfl

@[simp] theorem raise_cfg (e : Status) (s : State) : (raise e s).cfg = s.cfg := rfl
@[simp] theorem raise_ai (e : Status) (s : State) : (raise e s).ai = s.ai := rfl
@[simp] theorem raise_opd (e : Status) (s : State) : (raise e s).opd = none := rfl
@[simp] theorem raise_res (e : Status) (s : State) : (raise e s).res = some { status := e } := rfl
@[simp] theorem raise_log (e : Status) (s : State) : (raise e s).log = s.log := rfl
@[simp] theorem raise_inputs (e : Status) (s : State) : (raise e s).inputs = s.inputs := rfl
@[simp] theorem raise_answers (e : Status) (s : State) : (raise e s).answers = s.answers := rfl
@[simp] theorem raise_draws (e : Status) (s : State) : (raise e s).draws = s.draws := rfl

@[simp] theorem raiseBus_cfg (e : BusErr) (s : State) : (raiseBus e s).cfg = s.cfg := rfl
@[simp] theorem raiseBus_ai (e : BusErr) (s : State) : (raiseBus e s).ai = s.ai := rfl
@[simp] theorem raiseBus_opd (e : BusErr) (s : State) : (raiseBus e s).opd = none := rfl
@[simp] theorem raiseBus_res (e : BusErr) (s : State) : (raiseBus e s).res = some { status := .busError, berr := some e } := rfl
@[simp] theorem raiseBus_log (e : BusErr) (s : State) : (raiseBus e s).log = s.log := rfl
@[simp] theorem raiseBus_inputs (e : BusErr) (s : State) : (raiseBus e s).inputs = s.inputs := rfl
@[simp] theorem raiseBus_answers (e : BusErr) (s : State) : (raiseBus e s).answers = s.answers := rfl
@[simp] theorem raiseBus_draws (e : BusErr) (s : State) : (raiseBus e s).draws = s.draws := rfl

@[simp] theorem State.setGate_cfg (s : State) : (s.setGate).cfg = s.cfg := rfl
@[simp] theorem State.setGate_ai (s : State) : (s.setGate).ai = true := rfl
@[simp] theorem State.setGate_opd (s : State) : (s.setGate).opd = s.opd := rfl
@[simp] theorem State.setGate_res (s : State) : (s.setGate).res = s.res := rfl
@[simp] theorem State.setGate_log (s : State) : (s.setGate).log = s.log := rfl
@[simp] theorem State.setGate_inputs (s : State) : (s.setGate).inputs = s.inputs := rfl
@[simp] theorem State.setGate_answers (s : State) : (s.setGate).answers = s.answers := rfl
@[simp] theorem State.setGate_draws (s : State) : (s.setGate).draws = s.draws := rfl

/-! ### Using up an answer, submitting a request -/

@[simp] theorem State.advance_cfg (s : State) : s.advance.cfg = s.cfg := by
  cases h : s.answers <;> simp [State.advance, h]

@[simp] theorem State.advance_ai (s : State) : s.advance.ai = s.ai := by
  cases h : s.answers <;> simp [State.advance, h]

@[simp] theorem State.advance_opd (s : State) : s.advance.opd = s.opd := by
  cases h : s.answers <;> simp [State.advance, h]

@[simp] theorem State.advance_res (s : State) : s.advance.res = s.res := by
  cases h : s.answers <;> simp [State.advance, h]

@[simp] theorem State.advance_log (s : State) : s.advance.log = s.log := by
  cases h : s.answers <;> simp [State.advance, h]

@[simp] theorem State.advance_inputs (s : State) : s.advance.inputs = s.inputs := by
  cases h : s.answers <;> simp [State.advance, h]

/-- What `advance` does to the scripted answers. -/
@[simp] theorem State.advance_answers (s : State) : s.advance.answers = s.answers.tail := by
  cases h : s.answers <;> simp [State.advance, h]

/-- What `advance` does to the count of free answers. -/
theorem State.advance_draws (s : State) : s.advance.draws = s.draws + (1 - s.answers.length) := by
  cases h : s.answers <;> simp [State.advance, h]

@[simp] theorem State.submit_cfg (r : Request) (s : State) : (s.submit r).cfg = s.cfg := by simp [State.submit]
@[simp] theorem State.submit_ai (r : Request) (s : State) : (s.submit r).ai = s.ai := by simp [State.submit]
@[simp] theorem State.submit_opd (r : Request) (s : State) : (s.submit r).opd = s.opd := by simp [State.submit]
@[simp] theorem State.submit_res (r : Request) (s : State) : (s.submit r).res = s.res := by simp [State.submit]
@[simp] theorem State.submit_log (r : Request) (s : State) : (s.submit r).log = s.log ++ [{ req := r, resp := respond s.peek r }] := by simp [State.submit]
@[simp] theorem State.submit_inputs (r : Request) (s : State) : (s.submit r).inputs = s.inputs := by simp [State.submit]
@[simp] theorem State.submit_answers (r : Request) (s : State) : (s.submit r).answers = s.answers.tail := by simp [State.submit]
@[simp] theorem State.submit_draws (r : Request) (s : State) : (s.submit r).draws = s.advance.draws := by simp [State.submit]

/-! ### What a command reads from the operand port -/

theorem State.operands_congr {s t : State} (h : t.opd = s.opd) : t.operands = s.operands := by simp [State.operands, h]

@[simp] theorem State.operands_mk (cfg : Config) (ai : Bool) (o : Operands) (res : Option Result) (log : List Transaction)
    (inputs : List HostInput) (answers : List Answer) (draws : Nat) :
    State.operands ⟨cfg, ai, some o, res, log, inputs, answers, draws⟩ = o := rfl
@[simp] theorem State.setGate_operands (s : State) : s.setGate.operands = s.operands := rfl
@[simp] theorem State.advance_operands (s : State) : s.advance.operands = s.operands := State.operands_congr (by simp)
@[simp] theorem State.submit_operands (r : Request) (s : State) : (s.submit r).operands = s.operands :=
  State.operands_congr (by simp)

/-! ### Reset of the block -/

@[simp] theorem blockReset_cfg (s : State) : (blockReset s).cfg = s.cfg := rfl
@[simp] theorem blockReset_ai (s : State) : (blockReset s).ai = false := rfl
@[simp] theorem blockReset_opd (s : State) : (blockReset s).opd = none := rfl
@[simp] theorem blockReset_res (s : State) : (blockReset s).res = none := rfl
@[simp] theorem blockReset_log (s : State) : (blockReset s).log = s.log := rfl
@[simp] theorem blockReset_inputs (s : State) : (blockReset s).inputs = s.inputs := rfl
@[simp] theorem blockReset_answers (s : State) : (blockReset s).answers = s.answers := rfl
@[simp] theorem blockReset_draws (s : State) : (blockReset s).draws = s.draws := rfl

/-! ### What the next answer depends on -/

/-- Two states with the same scripted answers and the same count of free answers get the same answer. -/
theorem State.peek_congr (s t : State) (ha : t.answers = s.answers) (hd : t.draws = s.draws) : t.peek = s.peek := by
  simp [State.peek, ha, hd]

/-- `advance` keeps what was written to the other fields. -/
theorem State.advance_update (s : State) (ai : Bool) (opd : Option Operands) (res : Option Result) (log : List Transaction)
    (inputs : List HostInput) :
    State.advance { s with ai := ai, opd := opd, res := res, log := log, inputs := inputs } =
      { s.advance with ai := ai, opd := opd, res := res, log := log, inputs := inputs } := by
  cases h : s.answers <;> simp [State.advance, h]

/-! ### Reset -/

@[simp] theorem State.resetWith_cfg (c : Config) : (State.resetWith c).cfg = c := rfl
@[simp] theorem State.resetWith_log (c : Config) : (State.resetWith c).log = [] := rfl
@[simp] theorem State.resetWith_inputs (c : Config) : (State.resetWith c).inputs = [] := rfl
@[simp] theorem State.reset_eq : State.reset = State.resetWith Config.default := rfl

end Sys2Proof.Machine
end

