-- ==== Sys2Proof/Laws/Ops.lean ====
section
/-! SUPPORT. One lemma per shared operation that says everything it can do, for proofs to cite. -/

namespace Sys2Proof.Machine

/-! ### The transport -/

@[simp] theorem respond_err (e : BusErr) (r : Request) : respond (.err e) r = .err e := rfl
@[simp] theorem respond_write (d : Vector Byte 64) (dev : DevAddr) (bs : List Byte) :
    respond (.ok d) (.write dev bs) = .ok := rfl
@[simp] theorem respond_read (d : Vector Byte 64) (dev : DevAddr) (bs : List Byte) (n : Nat) :
    respond (.ok d) (.writeRead dev bs n) = .okData (d.toList.take n) := rfl

theorem transact_of_ok {s : State} {d : Vector Byte 64} (r : Request) (h : s.peek = .ok d) :
    transact r s = (.ok d, s.submit r) := by
  simp [transact, h]

theorem transact_of_err {s : State} {e : BusErr} (r : Request) (h : s.peek = .err e) :
    transact r s = (.error e, s.submit r) := by
  simp [transact, h]

/-! ### The gate -/

@[simp] theorem mode1Value_eq : mode1Value = 0x20#8 := rfl

theorem ensureGate_of_set {s : State} (h : s.ai = true) : ensureGate s = (.ok (), s) := by
  simp [ensureGate, h]

theorem ensureGate_of_err {s : State} {e : BusErr} (h : s.ai = false) (hp : s.peek = .err e) :
    ensureGate s = (.error e, s.submit (gateRequest s.cfg)) := by
  simp [ensureGate, h, busWrite, transact_of_err _ hp, gateRequest]

theorem ensureGate_of_ok {s : State} {d : Vector Byte 64} (h : s.ai = false) (hp : s.peek = .ok d) :
    ensureGate s = (.ok (), (s.submit (gateRequest s.cfg)).setGate) := by
  simp [ensureGate, h, busWrite, transact_of_ok _ hp, gateRequest]

/-- EnsureGate keeps everything but the gate, the log and the transport's answers. -/
theorem ensureGate_keeps (s : State) :
    (ensureGate s).2.cfg = s.cfg ∧ (ensureGate s).2.opd = s.opd ∧ (ensureGate s).2.res = s.res ∧
      (ensureGate s).2.inputs = s.inputs := by
  cases h : s.ai
  · cases hp : s.peek with
    | ok d => simp [ensureGate_of_ok h hp]
    | err e => simp [ensureGate_of_err h hp]
  · simp [ensureGate_of_set h]

/-! ### The bus skeleton -/

/-- A bus command over one request: what it does when the gate's write fails, the payload fails, and all succeeds. -/
def runRequest (p : Request) (r : Vector Byte 64 → Result) (s : State) : State := busCommand (transact p) r s

theorem runRequest_gate_err {s : State} {e : BusErr} (p : Request) (r : Vector Byte 64 → Result)
    (h : s.ai = false) (hp : s.peek = .err e) :
    runRequest p r s = raiseBus e (s.submit (gateRequest s.cfg)) := by
  simp [runRequest, busCommand, ensureGate_of_err h hp]

theorem runRequest_set_ok {s : State} {d : Vector Byte 64} (p : Request) (r : Vector Byte 64 → Result)
    (h : s.ai = true) (hp : s.peek = .ok d) : runRequest p r s = (s.submit p).deliver (r d) := by
  simp [runRequest, busCommand, ensureGate_of_set h, transact_of_ok p hp]

theorem runRequest_set_err {s : State} {e : BusErr} (p : Request) (r : Vector Byte 64 → Result)
    (h : s.ai = true) (hp : s.peek = .err e) : runRequest p r s = raiseBus e (s.submit p) := by
  simp [runRequest, busCommand, ensureGate_of_set h, transact_of_err p hp]

/-- With the gate Unset and its write answered Ok, the command goes on exactly as from the state with the gate Set. -/
theorem runRequest_unset_ok {s : State} {d : Vector Byte 64} (p : Request) (r : Vector Byte 64 → Result)
    (h : s.ai = false) (hp : s.peek = .ok d) :
    runRequest p r s = runRequest p r (s.submit (gateRequest s.cfg)).setGate := by
  have hs : ((s.submit (gateRequest s.cfg)).setGate).ai = true := by simp
  simp [runRequest, busCommand, ensureGate_of_ok h hp, ensureGate_of_set hs]

theorem busWriteRead_eq (w : List Byte) (n : Nat) (s : State) :
    busWriteRead w n s = transact (.writeRead s.cfg.devAddr w n) s := rfl

theorem programCommand_eq (bs : List Byte) (s : State) :
    programCommand bs s = runRequest (.write s.cfg.devAddr bs) (fun _ => { status := .ok }) s := by
  have h := (ensureGate_keeps s).1
  unfold programCommand runRequest busCommand
  revert h
  rcases ensureGate s with ⟨_ | _, t⟩ <;> intro h <;> simp_all [busWrite]

theorem readCommand_eq (a : Byte) (n : Nat) (r : Vector Byte 64 → Result) (s : State) :
    readCommand a n r s = runRequest (.writeRead s.cfg.devAddr [a] n) r s := by
  have h := (ensureGate_keeps s).1
  unfold readCommand runRequest busCommand
  revert h
  rcases ensureGate s with ⟨_ | _, t⟩ <;> intro h <;> simp_all [busWriteRead]

/-! ### The checks -/

theorem checkCh_of_le {ch : Nat} (s k : State) (h : ch ≤ 16) : checkCh ch s k = k := by
  simp [checkCh]; omega

theorem checkCh_of_gt {ch : Nat} (s k : State) (h : 16 < ch) : checkCh ch s k = raise .invalidChannel s := by
  simp [checkCh, h]

theorem checkCounts_of_le {cs : List Word} (s k : State) (h : ∀ c ∈ cs, c.toNat ≤ 4095) : checkCounts cs s k = k := by
  have : cs.any outOfRange = false := by
    simp only [List.any_eq_false, outOfRange, decide_eq_true_eq, maxCount]
    intro c hc
    have := h c hc
    omega
  simp [checkCounts, this]

theorem checkCounts_of_gt {cs : List Word} (s k : State) (h : ∃ c ∈ cs, 4095 < c.toNat) :
    checkCounts cs s k = raise .invalidCount s := by
  have : cs.any outOfRange = true := by
    simpa only [List.any_eq_true, outOfRange, decide_eq_true_eq, maxCount, gt_iff_lt] using h
  simp [checkCounts, this]

/-! ### The ports -/

theorem accept_command {s : State} {c : Command} {rest : List HostInput} {i : Instr} (hc : s.cfg.WF)
    (hi : s.inputs = .command c :: rest) (hd : decode c.cw = .ok i) :
    accept s = .run i { s with inputs := rest, opd := some c.opd, res := none } := by
  simp only [accept, if_pos hc, hi, hd]

theorem accept_illegal {s : State} {c : Command} {rest : List HostInput} {e : Illegal} (hc : s.cfg.WF)
    (hi : s.inputs = .command c :: rest) (hd : decode c.cw = .error e) :
    accept s = .done (raise .illegalCommand { s with inputs := rest, opd := some c.opd, res := none }) := by
  simp only [accept, if_pos hc, hi, hd]

theorem accept_reset {s : State} {rest : List HostInput} (hc : s.cfg.WF) (hi : s.inputs = .reset :: rest) :
    accept s = .done (blockReset { s with inputs := rest }) := by
  simp only [accept, if_pos hc, hi]

theorem accept_idle {s : State} (hc : s.cfg.WF) (hi : s.inputs = []) : accept s = .done { s with opd := none, res := none } := by
  simp only [accept, if_pos hc, hi]

theorem accept_illFormed {s : State} (hc : ¬ s.cfg.WF) : accept s = .refuse .illFormedConfig := by
  simp only [accept, if_neg hc]

end Sys2Proof.Machine
end

