-- ==== Sys2Proof/Laws/Exec.lean ====
section
/-! SUPPORT. What a command can do, said once: its checks fail, it uses no bus, or it is the bus skeleton over its payload
request. Every claim about all commands goes through these. -/

namespace Sys2Proof.Machine

/-- What a bus command delivers when its payload is answered with data `d` (R96..R111). -/
def busResult (d : Vector Byte 64) : Instr → Result
  | .geton _ => { status := .ok, rcount := some (countOf d[0] d[1]), rfull := some (flagOf d[1]) }
  | .getoff _ => { status := .ok, rcount := some (countOf d[0] d[1]), rfull := some (flagOf d[1]) }
  | .getfon _ => { status := .ok, rfull := some (flagOf d[1]) }
  | .getfoff _ => { status := .ok, rfull := some (flagOf d[1]) }
  | .getall =>
    { status := .ok
      ron := some (Vector.ofFn fun k : Fin 16 => countOf d[4 * k.val] d[4 * k.val + 1])
      roff := some (Vector.ofFn fun k : Fin 16 => countOf d[4 * k.val + 2] d[4 * k.val + 3]) }
  | .chint _ => { status := .ok }
  | .addr _ _ _ => { status := .ok }
  | .enc _ => { status := .ok }
  | .dec => { status := .ok }
  | .seton _ => { status := .ok }
  | .setoff _ => { status := .ok }
  | .setfon _ => { status := .ok }
  | .setfoff _ => { status := .ok }
  | .setonoff _ => { status := .ok }
  | .setall => { status := .ok }

theorem pairResult_eq (d : Vector Byte 64) :
    pairResult d = { status := .ok, rcount := some (countOf d[0] d[1]), rfull := some (flagOf d[1]) } := by
  simp [pairResult, decPair_eq]

theorem flagResult_eq (d : Vector Byte 64) : flagResult d = { status := .ok, rfull := some (flagOf d[1]) } := by
  simp [flagResult, decPair_eq]

theorem bulkResult_eq (d : Vector Byte 64) : bulkResult d =
    { status := .ok
      ron := some (Vector.ofFn fun k : Fin 16 => countOf d[4 * k.val] d[4 * k.val + 1])
      roff := some (Vector.ofFn fun k : Fin 16 => countOf d[4 * k.val + 2] d[4 * k.val + 3]) } := by
  simp [bulkResult, bulkOn, bulkOff, bulkCount, decPair_eq]

/-- A bus command whose checks pass is the bus skeleton over its payload request. -/
theorem exec_bus {i : Instr} {s : State} (hb : i.isBus = true) (hc : i.ChecksPass s.operands) :
    ∃ p, i.payload? s.cfg s.operands = some p ∧ exec i s = .next (runRequest p (busResult · i) s) := by
  obtain ⟨hch, hcs⟩ := hc
  cases i <;> simp only [Instr.isBus, Bool.false_eq_true] at hb <;> refine ⟨_, rfl, ?_⟩ <;> simp only [exec] <;>
    refine congrArg Host.Outcome.next ?_ <;> simp only [Instr.channel?, Instr.counts, Option.some.injEq, forall_eq', reduceCtorEq] at hch hcs
  case seton => rw [checkCh_of_le _ _ hch, checkCounts_of_le _ _ hcs, programCommand_eq, pairBytes,
    encPair_clear (hcs _ (by simp))]; rfl
  case setoff => rw [checkCh_of_le _ _ hch, checkCounts_of_le _ _ hcs, programCommand_eq, pairBytes,
    encPair_clear (hcs _ (by simp))]; rfl
  case setfon => rw [checkCh_of_le _ _ hch, checkCounts_of_le _ _ hcs, programCommand_eq]; rfl
  case setfoff => rw [checkCh_of_le _ _ hch, programCommand_eq]; rfl
  case geton => rw [checkCh_of_le _ _ hch, readCommand_eq]; exact congrArg (runRequest _ · s) (funext pairResult_eq)
  case getoff => rw [checkCh_of_le _ _ hch, readCommand_eq]; exact congrArg (runRequest _ · s) (funext pairResult_eq)
  case getfon => rw [checkCh_of_le _ _ hch, readCommand_eq]; exact congrArg (runRequest _ · s) (funext flagResult_eq)
  case getfoff => rw [checkCh_of_le _ _ hch, readCommand_eq]; exact congrArg (runRequest _ · s) (funext flagResult_eq)
  case setonoff => rw [checkCh_of_le _ _ hch, checkCounts_of_le _ _ hcs, programCommand_eq, blockBytes, pairBytes, pairBytes,
    encPair_clear (hcs _ (by simp)), encPair_clear (hcs _ (by simp))]; rfl
  case setall =>
    rw [checkCounts_of_le _ _ hcs, programCommand_eq, addrOf_bulk,
      bulkBytes_eq s.operands (fun c h => hcs c (by simp [h])) (fun c h => hcs c (by simp [h]))]; rfl
  case getall =>
    rw [readCommand_eq, addrOf_bulk]; exact congrArg (runRequest _ · s) (funext bulkResult_eq)

/-- The channel check comes first. -/
theorem exec_bad_channel {i : Instr} {s : State} {ch : Nat} (h : i.channel? = some ch) (hb : 16 < ch) :
    exec i s = .next (raise .invalidChannel s) := by
  cases i <;> simp only [Instr.channel?, reduceCtorEq, Option.some.injEq] at h <;> subst h <;> simp only [exec] <;>
    exact congrArg Host.Outcome.next (checkCh_of_gt _ _ hb)

/-- The count check comes next. -/
theorem exec_bad_count {i : Instr} {s : State} (h : ∀ ch, i.channel? = some ch → ch ≤ 16)
    (hb : ∃ c ∈ i.counts s.operands, 4095 < c.toNat) : exec i s = .next (raise .invalidCount s) := by
  cases i <;> simp only [Instr.channel?, Instr.counts, Option.some.injEq, forall_eq', List.not_mem_nil, false_and,
      exists_false] at h hb <;> simp only [exec] <;>
    first
    | exact congrArg Host.Outcome.next ((checkCh_of_le _ _ h).trans (checkCounts_of_gt _ _ hb))
    | exact congrArg Host.Outcome.next (checkCounts_of_gt _ _ hb)

/-- A command whose checks fail raises INVALID_CHANNEL or INVALID_COUNT and does nothing else. -/
theorem exec_of_not_checksPass {i : Instr} {s : State} (h : ¬ i.ChecksPass s.operands) :
    exec i s = .next (raise .invalidChannel s) ∨ exec i s = .next (raise .invalidCount s) := by
  by_cases hch : ∀ ch, i.channel? = some ch → ch ≤ 16
  · refine .inr (exec_bad_count hch ?_)
    by_contra hn
    refine h ⟨hch, fun c hc => ?_⟩
    by_contra hlt
    exact hn ⟨c, hc, by omega⟩
  · push Not at hch
    obtain ⟨ch, h1, h2⟩ := hch
    exact .inl (exec_bad_channel h1 h2)

/-- A command that uses no bus delivers one legal result and does nothing else; the result depends on the parameters and the
operand record only. -/
theorem exec_pure {i : Instr} (hb : i.isBus = false) (c : Config) (o : Operands) :
    ∃ r : Result, r.Legal ∧ (r.status = .ok → i.DeliversFields r) ∧
      (r.status = .ok ∨ r.status = .invalidChannel ∨ r.status = .invalidCount) ∧
      (i.ChecksPass o → r.status = .ok ∨ r.status = .invalidChannel ∧ ∃ sgn, i = .chint sgn) ∧
      ∀ s : State, s.cfg = c → s.operands = o → exec i s = .next (s.deliver r) := by
  have err : ∀ st : Status, st ≠ .ok → st ≠ .busError → ({ status := st } : Result).Legal := fun st h1 h2 =>
    { berr := by simpa using h2, onError := fun _ => rfl, channel := by simp, count := by simp, onCounts := by simp,
      offCounts := by simp }
  cases i <;> simp only [Instr.isBus, Bool.true_eq_false] at hb
  case chint sgn =>
    by_cases hv : 0 ≤ intOperand sgn o.n ∧ intOperand sgn o.n ≤ 15
    · refine ⟨{ status := .ok, rch := some (BitVec.ofInt 5 (intOperand sgn o.n)) }, ?_, fun _ => ⟨_, rfl⟩, .inl rfl,
        fun _ => .inl rfl, ?_⟩
      · refine { berr := by simp, onError := by simp, channel := ?_, count := by simp, onCounts := by simp,
                 offCounts := by simp }
        rintro c' ⟨⟩
        simp only [BitVec.toNat_ofInt]
        omega
      · rintro s rfl rfl
        simp only [exec, execChint, if_pos hv]
    · refine ⟨{ status := .invalidChannel }, err _ (by decide) (by decide), by simp, by simp, fun _ => .inr ⟨rfl, sgn, rfl⟩,
        ?_⟩
      rintro s rfl rfl
      simp only [exec, execChint, if_neg hv]; rfl
  case addr ch w b =>
    by_cases h : ch ≤ 16
    · refine ⟨{ status := .ok, raddr := some (addrOf c ch w b) }, ?_, fun _ => ⟨_, rfl⟩, .inl rfl, fun _ => .inl rfl, ?_⟩
      · exact { berr := by simp, onError := by simp, channel := by simp, count := by simp, onCounts := by simp,
                offCounts := by simp }
      · rintro s rfl rfl
        simp only [exec, execAddr, checkCh_of_le _ _ h]
    · refine ⟨{ status := .invalidChannel }, err _ (by decide) (by decide), by simp, by simp,
        fun hc => absurd (hc.1 ch rfl) h, ?_⟩
      rintro s rfl rfl
      simp only [exec, execAddr, checkCh_of_gt _ _ (Nat.lt_of_not_le h)]; rfl
  case enc f =>
    by_cases h : ∀ c ∈ [o.a], c.toNat ≤ 4095
    · refine ⟨{ status := .ok, rlo := some (encPair o.a f).1, rhi := some (encPair o.a f).2 }, ?_, fun _ => ⟨_, _, rfl⟩,
        .inl rfl, fun _ => .inl rfl, ?_⟩
      · exact { berr := by simp, onError := by simp, channel := by simp, count := by simp, onCounts := by simp,
                offCounts := by simp }
      · rintro s rfl rfl
        simp only [exec, execEnc, checkCounts_of_le _ _ h]
    · refine ⟨{ status := .invalidCount }, err _ (by decide) (by decide), by simp, by simp, fun hc => absurd hc.2 h, ?_⟩
      rintro s rfl rfl
      push Not at h
      simp only [exec, execEnc, checkCounts_of_gt _ _ h]; rfl
  case dec =>
    refine ⟨{ status := .ok, rcount := some (countOf o.l o.h), rfull := some (flagOf o.h) }, ?_, fun _ => ⟨_, _, rfl⟩,
      .inl rfl, fun _ => .inl rfl, ?_⟩
    · refine { berr := by simp, onError := by simp, channel := by simp, count := ?_, onCounts := by simp,
               offCounts := by simp }
      rintro c' ⟨⟩
      exact countOf_le _ _
    · rintro s rfl rfl
      simp only [exec, execDec, decPair_eq]

theorem countOf_ofFn_le (f g : Fin 16 → Byte) : ∀ c ∈ (Vector.ofFn fun k => countOf (f k) (g k)).toList, c.toNat ≤ 4095 := by
  intro c hc
  simp only [Vector.mem_toList_iff, Vector.mem_ofFn] at hc
  obtain ⟨k, rfl⟩ := hc
  exact countOf_le _ _

/-- A bus command's OK result is legal and holds the fields the table lists. -/
theorem busResult_spec {i : Instr} (hb : i.isBus = true) (d : Vector Byte 64) :
    (busResult d i).status = .ok ∧ (busResult d i).Legal ∧ i.DeliversFields (busResult d i) := by
  cases i <;> simp only [Instr.isBus, Bool.false_eq_true] at hb <;> refine ⟨rfl, ?_, ?_⟩ <;>
    simp only [busResult, Instr.DeliversFields, Result.mk.injEq, true_and, and_true, Option.some.injEq, exists_eq',
      exists_and_left] <;>
    refine { berr := by simp, onError := by simp, channel := by simp, count := ?_, onCounts := ?_, offCounts := ?_ } <;>
    simp only [Option.some.injEq, forall_eq', reduceCtorEq, false_implies, implies_true] <;>
    first
    | exact countOf_le _ _
    | exact countOf_ofFn_le _ _

/-- The three ways a bus command whose checks pass can end: `g` is the state after a passing gate. -/
theorem runRequest_cases (p : Request) (r : Vector Byte 64 → Result) (s : State) :
    (∃ e, s.ai = false ∧ s.peek = .err e ∧ runRequest p r s = raiseBus e (s.submit (gateRequest s.cfg))) ∨
    ∃ g, GatePassed s g ∧
      ((∃ e, g.peek = .err e ∧ runRequest p r s = raiseBus e (g.submit p)) ∨
       (∃ d, g.peek = .ok d ∧ runRequest p r s = (g.submit p).deliver (r d))) := by
  cases h : s.ai with
  | true =>
    refine .inr ⟨s, .inl ⟨h, rfl⟩, ?_⟩
    cases hp : s.peek with
    | ok d => exact .inr ⟨d, rfl, runRequest_set_ok p r h hp⟩
    | err e => exact .inl ⟨e, rfl, runRequest_set_err p r h hp⟩
  | false =>
    cases hp : s.peek with
    | err e => exact .inl ⟨e, rfl, rfl, runRequest_gate_err p r h hp⟩
    | ok d =>
      have hg : GatePassed s (s.submit (gateRequest s.cfg)).setGate :=
        .inr ⟨h, ⟨d, hp⟩, by simp [State.setGate, State.submit, hp, gateEntry, gateRequest]⟩
      have hs : ((s.submit (gateRequest s.cfg)).setGate).ai = true := by simp
      refine .inr ⟨_, hg, ?_⟩
      cases hq : ((s.submit (gateRequest s.cfg)).setGate).peek with
      | ok d' => exact .inr ⟨d', rfl, by rw [runRequest_unset_ok p r h hp, runRequest_set_ok p r hs hq]⟩
      | err e => exact .inl ⟨e, rfl, by rw [runRequest_unset_ok p r h hp, runRequest_set_err p r hs hq]⟩

/-- Submitting does not look at the operand port, the result port, the log or the host's list. -/
theorem State.submit_update (p : Request) (s : State) (opd : Option Operands) (res : Option Result) (log : List Transaction)
    (inputs : List HostInput) :
    State.submit p { s with opd := opd, res := res, log := log, inputs := inputs } =
      { s.submit p with
        opd := opd, res := res, log := log ++ [{ req := p, resp := respond s.peek p }], inputs := inputs } := by
  cases h : s.answers <;> simp [State.submit, State.advance, State.peek, h]

/-- The bus skeleton does not look at the operand port, the result port, the log or the host's list: it adds the same entries
to any log and does the same to everything else. -/
theorem runRequest_update (p : Request) (r : Vector Byte 64 → Result) (s : State) :
    ∃ new, (runRequest p r s).log = s.log ++ new ∧
      ∀ (opd : Option Operands) (res : Option Result) (log : List Transaction) (inputs : List HostInput),
        runRequest p r { s with opd := opd, res := res, log := log, inputs := inputs } =
          { runRequest p r s with log := log ++ new, inputs := inputs } := by
  have set : ∀ g : State, g.ai = true → ∃ new, (runRequest p r g).log = g.log ++ new ∧
      ∀ (opd : Option Operands) (res : Option Result) (log : List Transaction) (inputs : List HostInput),
        runRequest p r { g with opd := opd, res := res, log := log, inputs := inputs } =
          { runRequest p r g with log := log ++ new, inputs := inputs } := by
    intro g hg
    refine ⟨[{ req := p, resp := respond g.peek p }], ?_, fun opd res log inputs => ?_⟩
    · cases hp : g.peek with
      | ok d => rw [runRequest_set_ok p r hg hp]; simp [hp]
      | err e => rw [runRequest_set_err p r hg hp]; simp [hp]
    · have hu : ({ g with opd := opd, res := res, log := log, inputs := inputs } : State).ai = true := hg
      cases hp : g.peek with
      | ok d =>
        rw [runRequest_set_ok p r hg hp, runRequest_set_ok p r hu hp, State.submit_update, hp]; rfl
      | err e =>
        rw [runRequest_set_err p r hg hp, runRequest_set_err p r hu hp, State.submit_update, hp]; rfl
  rcases Bool.eq_false_or_eq_true s.ai with ha | ha
  · exact set s ha
  · have hu : ∀ (opd : Option Operands) (res : Option Result) (log : List Transaction) (inputs : List HostInput),
        ({ s with opd := opd, res := res, log := log, inputs := inputs } : State).ai = false := fun _ _ _ _ => ha
    cases hp : s.peek with
    | err e =>
      refine ⟨[{ req := gateRequest s.cfg, resp := .err e }], ?_, fun opd res log inputs => ?_⟩
      · rw [runRequest_gate_err p r ha hp]; simp [hp]
      · rw [runRequest_gate_err p r ha hp, runRequest_gate_err p r (hu opd res log inputs) hp, State.submit_update, hp]; rfl
    | ok d =>
      obtain ⟨new, hlog, hnew⟩ := set (s.submit (gateRequest s.cfg)).setGate rfl
      refine ⟨{ req := gateRequest s.cfg, resp := respond s.peek (gateRequest s.cfg) } :: new, ?_,
        fun opd res log inputs => ?_⟩
      · rw [runRequest_unset_ok p r ha hp, hlog]; simp
      · rw [runRequest_unset_ok p r (hu opd res log inputs) hp, runRequest_unset_ok p r ha hp, State.submit_update]
        have := hnew opd res (log ++ [{ req := gateRequest s.cfg, resp := respond s.peek (gateRequest s.cfg) }]) inputs
        rw [List.append_assoc] at this
        exact this

/-- What a passing gate leaves. -/
theorem GatePassed.facts {s g : State} (h : GatePassed s g) :
    g.ai = true ∧ g.cfg = s.cfg ∧ g.opd = s.opd ∧ g.res = s.res ∧ g.inputs = s.inputs ∧ g.log = s.log ++ gateEntries s := by
  obtain ⟨h1, rfl⟩ | ⟨h1, -, rfl⟩ := h <;> simp [gateEntries, h1]

end Sys2Proof.Machine
end

