-- ==== Sys2Proof/Laws/PerInstr.lean ====
section
/-! SUPPORT. Statements made per instruction (LAWS.json), one lemma per constructor. -/

namespace Sys2Proof.Laws.OpcodeBits

/-- The encoder puts the table's `match` value under the table's mask 0xE00F (R59, R64). -/
def Statement (i : Instr) : Prop := encode i &&& 0xE00F#16 = BitVec.ofNat 16 i.opcode

/-- The bits of an assembled word under the mask are its opcode. -/
theorem assemble_mask (op : BitVec 4) (ch : BitVec 5) (which half full sgn : Bool) :
    assemble op ch which half full sgn &&& 0xE00F#16 = op.setWidth 16 := by
  ext k hk
  interval_cases k <;> simp [assemble]

theorem chint (sgn : Bool) : Statement (.chint sgn) := assemble_mask _ _ _ _ _ _
theorem addr (ch : Nat) (which : Which) (half : Half) : Statement (.addr ch which half) := assemble_mask _ _ _ _ _ _
theorem enc (full : Bool) : Statement (.enc full) := assemble_mask _ _ _ _ _ _
theorem dec : Statement .dec := assemble_mask _ _ _ _ _ _
theorem seton (ch : Nat) : Statement (.seton ch) := assemble_mask _ _ _ _ _ _
theorem setoff (ch : Nat) : Statement (.setoff ch) := assemble_mask _ _ _ _ _ _
theorem setfon (ch : Nat) : Statement (.setfon ch) := assemble_mask _ _ _ _ _ _
theorem setfoff (ch : Nat) : Statement (.setfoff ch) := assemble_mask _ _ _ _ _ _
theorem geton (ch : Nat) : Statement (.geton ch) := assemble_mask _ _ _ _ _ _
theorem getoff (ch : Nat) : Statement (.getoff ch) := assemble_mask _ _ _ _ _ _
theorem getfon (ch : Nat) : Statement (.getfon ch) := assemble_mask _ _ _ _ _ _
theorem getfoff (ch : Nat) : Statement (.getfoff ch) := assemble_mask _ _ _ _ _ _
theorem setonoff (ch : Nat) : Statement (.setonoff ch) := assemble_mask _ _ _ _ _ _
theorem setall : Statement .setall := assemble_mask _ _ _ _ _ _
theorem getall : Statement .getall := assemble_mask _ _ _ _ _ _

end Sys2Proof.Laws.OpcodeBits
end

