-- ==== Sys2Proof/Laws/Step.lean ====
section
/-! SUPPORT. What a step can do, said once, and the induction over runs packaged once. -/

namespace Sys2Proof.Machine

/-- Every command completes. -/
theorem exec_next (i : Instr) (s : State) : ∃ t, exec i s = .next t := by
  by_cases hc : i.ChecksPass s.operands
  · cases hb : i.isBus with
    | true =>
      obtain ⟨p, -, h⟩ := exec_bus hb hc
      exact ⟨_, h⟩
    | false =>
      obtain ⟨r, -, -, -, -, h⟩ := exec_pure hb s.cfg s.operands
      exact ⟨_, h s rfl rfl⟩
  · obtain h | h := exec_of_not_checksPass hc <;> exact ⟨_, h⟩

/-- What a command can do, whatever it is: deliver a result with no access; raise after a failed gate write; or pass the gate,
issue its payload, and raise or deliver. -/
theorem exec_cases {i : Instr} {s t : State} (h : exec i s = .next t) :
    (∃ r : Result, r.Legal ∧ (r.status = .ok → i.isBus = false ∧ i.DeliversFields r) ∧
      (r.status = .ok ∨ r.status = .invalidChannel ∨ r.status = .invalidCount) ∧ t = s.deliver r ∧
      ((i.isBus = true ∧ ¬ i.ChecksPass s.operands ∧ r.status ≠ .ok) ∨ i.isBus = false)) ∨
    (i.isBus = true ∧ i.ChecksPass s.operands ∧ ∃ p, i.payload? s.cfg s.operands = some p ∧
      ((∃ e, s.ai = false ∧ s.peek = .err e ∧ t = raiseBus e (s.submit (gateRequest s.cfg))) ∨
       ∃ g, GatePassed s g ∧
        ((∃ e, g.peek = .err e ∧ t = raiseBus e (g.submit p)) ∨
         (∃ d, g.peek = .ok d ∧ t = (g.submit p).deliver (busResult d i))))) := by
  cases hb : i.isBus with
  | false =>
    obtain ⟨r, hl, hf, hs, -, hr⟩ := exec_pure hb s.cfg s.operands
    have := (hr s rfl rfl).symm.trans h
    cases this
    exact .inl ⟨r, hl, fun h => ⟨rfl, hf h⟩, hs, rfl, .inr rfl⟩
  | true =>
    by_cases hc : i.ChecksPass s.operands
    · obtain ⟨p, hp, hx⟩ := exec_bus hb hc
      have := hx.symm.trans h
      cases this
      exact .inr ⟨rfl, hc, p, hp, runRequest_cases p _ s⟩
    · have legal : ∀ st : Status, st ≠ .ok → st ≠ .busError → ({ status := st } : Result).Legal := fun st h1 h2 =>
        { berr := by simpa using h2, onError := fun _ => rfl, channel := by simp, count := by simp, onCounts := by simp,
          offCounts := by simp }
      obtain h' | h' := exec_of_not_checksPass hc
      · have := h'.symm.trans h
        cases this
        exact .inl ⟨_, legal _ (by decide) (by decide), by simp, by simp, rfl, .inl ⟨rfl, hc, by simp⟩⟩
      · have := h'.symm.trans h
        cases this
        exact .inl ⟨_, legal _ (by decide) (by decide), by simp, by simp, rfl, .inl ⟨rfl, hc, by simp⟩⟩

/-- What a step can do: it needs a well-formed configuration, and waits, resets, raises ILLEGAL_COMMAND or runs a command. -/
theorem step_cases {s t : State} (h : step s = .next t) :
    s.cfg.WF ∧
    ((s.inputs = [] ∧ t = { s with opd := none, res := none }) ∨
     (∃ rest, s.inputs = .reset :: rest ∧ t = blockReset { s with inputs := rest }) ∨
     (∃ c rest e, s.inputs = .command c :: rest ∧ decode c.cw = .error e ∧
        t = raise .illegalCommand { s with inputs := rest, opd := some c.opd, res := none }) ∨
     (∃ c rest i, s.inputs = .command c :: rest ∧ decode c.cw = .ok i ∧
        exec i { s with inputs := rest, opd := some c.opd, res := none } = .next t)) := by
  by_cases hc : s.cfg.WF
  · refine ⟨hc, ?_⟩
    cases hi : s.inputs with
    | nil =>
      rw [step, accept_idle hc hi] at h
      cases h
      exact .inl ⟨rfl, by simp [hi]⟩
    | cons x rest =>
      cases x with
      | reset =>
        rw [step, accept_reset hc hi] at h
        cases h
        exact .inr (.inl ⟨rest, rfl, rfl⟩)
      | command c =>
        cases hd : decode c.cw with
        | error e =>
          rw [step, accept_illegal hc hi hd] at h
          cases h
          exact .inr (.inr (.inl ⟨c, rest, e, rfl, hd, rfl⟩))
        | ok i =>
          rw [step, accept_command hc hi hd] at h
          exact .inr (.inr (.inr ⟨c, rest, i, rfl, hd, h⟩))
  · rw [step, accept_illFormed hc] at h
    cases h

/-- A step of a well-configured block always goes on. -/
theorem step_next {s : State} (hc : s.cfg.WF) : ∃ t, step s = .next t := by
  cases hi : s.inputs with
  | nil => exact ⟨_, by rw [step, accept_idle hc hi]⟩
  | cons x rest =>
    cases x with
    | reset => exact ⟨_, by rw [step, accept_reset hc hi]⟩
    | command c =>
      cases hd : decode c.cw with
      | error e => exact ⟨_, by rw [step, accept_illegal hc hi hd]⟩
      | ok i =>
        obtain ⟨t, ht⟩ := exec_next i { s with inputs := rest, opd := some c.opd, res := none }
        exact ⟨t, by rw [step, accept_command hc hi hd]; exact ht⟩

/-- One step of the host's run, by outcome. -/
theorem hostRun_of_next {M : Host.Core} {k : Nat} {s t : M.State} (h : M.step s = .next t) :
    M.run (k + 1) s = M.run k t := by
  rw [Host.Core.run, h]

theorem hostRun_of_fault {M : Host.Core} {k : Nat} {s : M.State} {r : M.Fault} (h : M.step s = .fault r) :
    M.run (k + 1) s = .fault r := by
  rw [Host.Core.run, h]

theorem hostRun_of_refused {M : Host.Core} {k : Nat} {s : M.State} {r : M.Refusal} (h : M.step s = .refused r) :
    M.run (k + 1) s = .refused r := by
  rw [Host.Core.run, h]

/-- `runSteps` is the host's run. -/
theorem runSteps_eq_run (k : Nat) : ∀ s : State, runSteps k s = Sys2Proof.core.run k s := by
  induction k with
  | zero => intro s; rfl
  | succ k ih =>
    intro s
    cases hs : step s with
    | next t => rw [runSteps, hs]; exact (ih t).trans (hostRun_of_next (M := Sys2Proof.core) hs).symm
    | fault r => rw [runSteps, hs]; exact (hostRun_of_fault (M := Sys2Proof.core) hs).symm
    | refused r => rw [runSteps, hs]; exact (hostRun_of_refused (M := Sys2Proof.core) hs).symm

theorem runSteps_succ_of_next {k : Nat} {s t : State} (h : step s = .next t) : runSteps (k + 1) s = runSteps k t := by
  rw [runSteps, h]

/-- The first step of a run that goes on. -/
theorem runSteps_succ_cases {k : Nat} {s t : State} (h : runSteps (k + 1) s = .next t) :
    ∃ u, step s = .next u ∧ runSteps k u = .next t := by
  rw [runSteps] at h
  cases hs : step s with
  | next u => rw [hs] at h; exact ⟨u, rfl, h⟩
  | fault r => cases r
  | refused r => rw [hs] at h; cases h

/-- Induction over a run: a relation between the first and the last state holds over every run if it is reflexive and a step
followed by it is in it. -/
theorem runSteps_induction {R : State → State → Prop} (refl : ∀ s, R s s)
    (head : ∀ s u t, step s = .next u → R u t → R s t) :
    ∀ (k : Nat) (s t : State), runSteps k s = .next t → R s t := by
  intro k
  induction k with
  | zero => intro s t h; cases h; exact refl _
  | succ k ih =>
    intro s t h
    obtain ⟨u, hu, hr⟩ := runSteps_succ_cases h
    exact head s u t hu (ih u t hr)

end Sys2Proof.Machine
end

