-- ==== Sys2Proof/Tests/Slice0.lean ====
section
/-! SUPPORT. Tests of the model on the spec's own words and vectors (30_encoding.md R51 and R62, 95_test_vectors.md), and a
witness for the hypotheses of every statement that has some. -/

namespace Sys2Proof.Tests

open Sys2Proof.Machine

/-! ### Helpers -/

/-- A successful answer whose data starts with `bytes`, zeros after them. -/
def ans (bytes : List Byte) : Answer := .ok (Vector.ofFn fun k : Fin 64 => bytes.getD k.val 0x00#8)

/-- A successful answer whose data repeats `block` in each of the 16 channel blocks. -/
def ansBlocks (block : List Byte) : Answer := .ok (Vector.ofFn fun k : Fin 64 => block.getD (k.val % 4) 0x00#8)

/-- The default block with a gate value, an operand record at its port and scripted answers. -/
def st (ai : Bool) (opd : Operands) (answers : List Answer) : State :=
  { State.reset with ai := ai, opd := some opd, answers := answers }

/-- The default block between commands, with a gate value, scripted answers and what the host does next. -/
def idle (ai : Bool) (answers : List Answer) (inputs : List HostInput) : State :=
  { State.reset with ai := ai, answers := answers, inputs := inputs }

/-- The default block with one command word presented. -/
def word (ai : Bool) (cw : Word) (opd : Operands) (answers : List Answer) : State :=
  idle ai answers [.command { cw := cw, opd := opd }]

/-- The default block with one assembler line presented. -/
def line (ai : Bool) (l : Line) (answers : List Answer) : State :=
  idle ai answers [.command (lineCommand l)]

/-- What a step shows: the gate, the result port and the log. -/
def shows (o : Host.Outcome State Fault Refusal) : Option (Bool × Option Result × List Transaction) :=
  match o with
  | .next t => some (t.ai, t.res, t.log)
  | .fault _ => none
  | .refused _ => none

/-- `W [bytes]` of the vectors. -/
def W (bytes : List Byte) : Transaction := { req := .write 0 bytes, resp := .ok }

/-- `WR [a] n` of the vectors, answered with `data`. -/
def WR (a : Byte) (n : Nat) (data : List Byte) : Transaction := { req := .writeRead 0 [a] n, resp := .okData data }

/-! ### Well-formedness: the one check, on every constructor that carries a channel code -/

theorem test_wellFormed_refuses_code_32 :
    [(Instr.addr 32 .on .low).wellFormed, (Instr.seton 32).wellFormed, (Instr.setoff 32).wellFormed,
      (Instr.setfon 32).wellFormed, (Instr.setfoff 32).wellFormed, (Instr.geton 32).wellFormed, (Instr.getoff 32).wellFormed,
      (Instr.getfon 32).wellFormed, (Instr.getfoff 32).wellFormed, (Instr.setonoff 32).wellFormed] =
    List.replicate 10 false := by decide

theorem test_wellFormed_accepts_code_31 : (Instr.addr 31 .off .high).wellFormed = true := by decide

/-! ### Decoding: a word of each command, written bit 15 first from the table's `encoding` column -/

theorem test_decode_chint : decode 0b000_1_00000000_0000#16 = .ok (.chint true) := by decide
theorem test_decode_addr : decode 0b000_00_1_1_01111_0001#16 = .ok (.addr 15 .off .high) := by decide
theorem test_decode_enc : decode 0b000_0_1_0000000_0010#16 = .ok (.enc true) := by decide
theorem test_decode_dec : decode 0b000_000000000_0011#16 = .ok .dec := by decide
theorem test_decode_seton : decode 0b000_0000_00011_0100#16 = .ok (.seton 3) := by decide
theorem test_decode_setoff : decode 0b000_0000_01111_0101#16 = .ok (.setoff 15) := by decide
theorem test_decode_setfon : decode 0b000_0000_00101_0110#16 = .ok (.setfon 5) := by decide
theorem test_decode_setfoff : decode 0b000_0000_00111_0111#16 = .ok (.setfoff 7) := by decide
theorem test_decode_geton : decode 0b000_0000_10001_1000#16 = .ok (.geton 17) := by decide
theorem test_decode_getoff : decode 0b000_0000_10000_1001#16 = .ok (.getoff 16) := by decide
theorem test_decode_getfon : decode 0b000_0000_00001_1010#16 = .ok (.getfon 1) := by decide
theorem test_decode_getfoff : decode 0b000_0000_11111_1011#16 = .ok (.getfoff 31) := by decide
theorem test_decode_setonoff : decode 0b000_0000_01001_1100#16 = .ok (.setonoff 9) := by decide
theorem test_decode_setall : decode 0b000_000000000_1101#16 = .ok .setall := by decide
theorem test_decode_getall : decode 0b000_000000000_1110#16 = .ok .getall := by decide
theorem test_decode_reserved_opcode : decode 0b000_000000000_1111#16 = .error .reservedOpcode := by decide
theorem test_decode_reserved_bits : decode 0b100_000000000_0011#16 = .error .reservedBits := by decide
theorem test_decode_ignores_unread : decode 0b000_1_1_1_1_11111_1110#16 = .ok .getall := by decide
theorem test_decodeTableWord : decodeTableWord 16 0x06F1 = some (.addr 15 .off .high) := by decide
theorem test_decodeTableWord_illegal : decodeTableWord 16 0x200F = none := by decide

/-! ### One step of each command, on the vectors of 95_test_vectors.md section 3 -/

theorem test_chint_15 : shows (step (line false (.chint 15#32) [])) =
    some (false, some { status := .ok, rch := some 15#5 }, []) := by decide
theorem test_chint_minus_one : shows (step (line false (.chintS (-1)) [])) =
    some (false, some { status := .invalidChannel }, []) := by decide
theorem test_addr_c15_off_high : shows (step (word false 0x06F1#16 Operands.zero [])) =
    some (false, some { status := .ok, raddr := some 0x45#8 }, []) := by decide
theorem test_addr_code_17 : shows (step (word false 0x0111#16 Operands.zero [])) =
    some (false, some { status := .invalidChannel }, []) := by decide
theorem test_enc_0x123 : shows (step (line false (.enc 0x123#16) [])) =
    some (false, some { status := .ok, rlo := some 0x23#8, rhi := some 0x01#8 }, []) := by decide
theorem test_enc_full_4096 : shows (step (line false (.encF 4096#16) [])) =
    some (false, some { status := .invalidCount }, []) := by decide
theorem test_dec_full : shows (step (line false (.dec 0x12#8 0x1F#8) [])) =
    some (false, some { status := .ok, rcount := some 0xF12#16, rfull := some true }, []) := by decide
theorem test_dec_high_bits : shows (step (line false (.dec 0x34#8 0xE2#8) [])) =
    some (false, some { status := .ok, rcount := some 0x234#16, rfull := some false }, []) := by decide
theorem test_seton_c3 : shows (step (line true (.seton (.c 3) 0x123#16) [ans []])) =
    some (true, some { status := .ok }, [W [0x12, 0x23, 0x01]]) := by decide
theorem test_seton_gate_first : shows (step (line false (.seton (.c 0) 1#16) [ans [], ans []])) =
    some (true, some { status := .ok }, [W [0x00, 0x20], W [0x06, 0x01, 0x00]]) := by decide
theorem test_setoff_c15 : shows (step (line true (.setoff (.c 15) 4095#16) [ans []])) =
    some (true, some { status := .ok }, [W [0x44, 0xFF, 0x0F]]) := by decide
theorem test_setoff_4096 : shows (step (line false (.setoff (.c 0) 4096#16) [])) =
    some (false, some { status := .invalidCount }, []) := by decide
theorem test_setfon_c5 : shows (step (line true (.setfon (.c 5) 100#16) [ans []])) =
    some (true, some { status := .ok }, [W [0x1A, 0x00, 0x10]]) := by decide
theorem test_setfoff_ignores_count : shows (step (word true 0x0077#16 { Operands.zero with a := 0xFFFF#16 } [ans []])) =
    some (true, some { status := .ok }, [W [0x24, 0x00, 0x10]]) := by decide
theorem test_setfoff_gate_error : shows (step (line false (.setfoff (.c 2)) [.err 7])) =
    some (false, some { status := .busError, berr := some 7 },
      [{ req := .write 0 [0x00, 0x20], resp := .err 7 }]) := by decide
theorem test_geton_c0 : shows (step (line true (.geton (.c 0)) [ans [0x34, 0x02]])) =
    some (true, some { status := .ok, rcount := some 0x234#16, rfull := some false }, [WR 0x06 2 [0x34, 0x02]]) := by decide
theorem test_geton_error : shows (step (line true (.geton (.c 0)) [.err 9])) =
    some (true, some { status := .busError, berr := some 9 },
      [{ req := .writeRead 0 [0x06] 2, resp := .err 9 }]) := by decide
theorem test_getoff_all : shows (step (line true (.getoff .all) [ans [0x00, 0x00]])) =
    some (true, some { status := .ok, rcount := some 0#16, rfull := some false }, [WR 0xFC 2 [0x00, 0x00]]) := by decide
theorem test_getfon_c1 : shows (step (line true (.getfon (.c 1)) [ans [0x00, 0x10]])) =
    some (true, some { status := .ok, rfull := some true }, [WR 0x0A 2 [0x00, 0x10]]) := by decide
theorem test_getfoff_c1 : shows (step (line true (.getfoff (.c 1)) [ans [0xAB, 0xEF]])) =
    some (true, some { status := .ok, rfull := some false }, [WR 0x0C 2 [0xAB, 0xEF]]) := by decide
theorem test_getfoff_code_20 : shows (step (line false (.getfoff (.raw 20)) [])) =
    some (false, some { status := .invalidChannel }, []) := by decide
theorem test_setonoff_c9 : shows (step (line true (.setonoff (.c 9) 0x0AB#16 0xCDE#16) [ans []])) =
    some (true, some { status := .ok }, [W [0x2A, 0xAB, 0x00, 0xDE, 0x0C]]) := by decide
theorem test_setonoff_second_count : shows (step (line true (.setonoff (.c 0) 4095#16 4096#16) [])) =
    some (true, some { status := .invalidCount }, []) := by decide
theorem test_setall_ramp : shows (step (line true
      (.setall (Vector.ofFn fun k => BitVec.ofNat 16 k.val) (Vector.ofFn fun k => BitVec.ofNat 16 (4095 - k.val))) [ans []])) =
    some (true, some { status := .ok }, [W
      [0x06, 0x00, 0x00, 0xFF, 0x0F, 0x01, 0x00, 0xFE, 0x0F, 0x02, 0x00, 0xFD, 0x0F, 0x03, 0x00, 0xFC, 0x0F,
       0x04, 0x00, 0xFB, 0x0F, 0x05, 0x00, 0xFA, 0x0F, 0x06, 0x00, 0xF9, 0x0F, 0x07, 0x00, 0xF8, 0x0F,
       0x08, 0x00, 0xF7, 0x0F, 0x09, 0x00, 0xF6, 0x0F, 0x0A, 0x00, 0xF5, 0x0F, 0x0B, 0x00, 0xF4, 0x0F,
       0x0C, 0x00, 0xF3, 0x0F, 0x0D, 0x00, 0xF2, 0x0F, 0x0E, 0x00, 0xF1, 0x0F, 0x0F, 0x00, 0xF0, 0x0F]]) := by decide
theorem test_setall_last_off_count : shows (step (line false
      (.setall (Vector.replicate 16 0#16) (Vector.ofFn fun k => if k.val = 15 then 4096#16 else 0#16)) [])) =
    some (false, some { status := .invalidCount }, []) := by decide
theorem test_getall_discards_flags :
    (shows (step (line true .getall [ansBlocks [0x00, 0x10, 0xFF, 0xFF]]))).map (fun x => x.2.1) =
    some (some { status := .ok, ron := some (Vector.replicate 16 0#16), roff := some (Vector.replicate 16 4095#16) }) := by
  decide
theorem test_getall_source_example :
    (shows (step (line true .getall [ans [0, 0, 0, 0, 0, 0, 0, 0, 0, 0, 0, 0, 255, 255, 0, 0]]))).map
      (fun x => (x.2.1.bind (·.ron)).map (fun v => (v[2], v[3], v[4]))) =
    some (some (0#16, 4095#16, 0#16)) := by decide

/-! ### Priority of errors (section 3.8) -/

theorem test_priority_illegal_over_channel : shows (step (word true 0x2114#16 { Operands.zero with a := 4096#16 } [])) =
    some (true, some { status := .illegalCommand }, []) := by decide
theorem test_priority_channel_over_count : shows (step (word true 0x0114#16 { Operands.zero with a := 4096#16 } [])) =
    some (true, some { status := .invalidChannel }, []) := by decide

/-! ### Reset, an ill-formed configuration, a word placed after reset -/

theorem test_reset_input : shows (step (idle true [] [.reset])) = some (false, none, []) := by decide

/-- After a command the operand port holds no value (R26). -/
theorem test_operand_port_empty :
    (match step (line true (.setfoff (.c 7)) [ans []]) with
      | .next t => t.opd
      | .fault _ => some Operands.zero
      | .refused _ => some Operands.zero) = none := by decide

/-- A step of a block whose broadcast block would overlap mode-1 (R9 (c)) is refused by name. -/
theorem test_illFormed_refused :
    step (State.resetWith { Config.default with mode1Addr := 0xFD#8 }) = .refused .illFormedConfig := by rfl

theorem test_withFetchWord : shows (step (State.reset.withFetchWord 16 0x0301)) =
    some (false, some { status := .ok, raddr := some 0xFC#8 }, []) := by decide

/-! ### The register file of 95_test_vectors.md (program P1's end state of RF) -/

theorem test_fixture_P1 :
    let rf := rfReplay Config.default [W [0x00, 0x20], W [0x06, 0x00, 0x00, 0xFF, 0x0F]] rfZero
    (rf 0x00, rf 0x06, rf 0x07, rf 0x08, rf 0x09, rf 0x0A) = (0x20#8, 0x00#8, 0x00#8, 0xFF#8, 0x0F#8, 0x00#8) := by decide

theorem test_fixture_broadcast :
    let rf := rfReplay Config.default [W [0xFA, 0xFF, 0x0F, 0x00, 0x00]] rfZero
    (rf 0xFA, rf 0x06, rf 0x07, rf 0x42, rf 0x43, rf 0x44) = (0xFF#8, 0xFF#8, 0x0F#8, 0xFF#8, 0x0F#8, 0x00#8) := by decide

/-! ### Witnesses: the hypotheses of each statement, met together -/

/-- The gate of a state with any operand record: passed when Set, passed when Unset with an Ok answer, failed with an error. -/
theorem witness_gate (opd : Operands) :
    (∃ s g d, s.operands = opd ∧ s.ai = true ∧ GatePassed s g ∧ g.peek = .ok d) ∧
    (∃ s g d, s.operands = opd ∧ s.ai = false ∧ GatePassed s g ∧ g.peek = .ok d) ∧
    (∃ s g e, s.operands = opd ∧ s.ai = true ∧ GatePassed s g ∧ g.peek = .err e) ∧
    (∃ s g e, s.operands = opd ∧ s.ai = false ∧ GatePassed s g ∧ g.peek = .err e) ∧
    (∃ s e g, s.operands = opd ∧ GateFailed s e g) :=
  ⟨⟨st true opd [ans []], _, _, rfl, rfl, .inl ⟨rfl, rfl⟩, rfl⟩,
   ⟨st false opd [ans [], ans []], _, _, rfl, rfl, .inr ⟨rfl, ⟨_, rfl⟩, rfl⟩, rfl⟩,
   ⟨st true opd [.err 9], _, 9, rfl, rfl, .inl ⟨rfl, rfl⟩, rfl⟩,
   ⟨st false opd [ans [], .err 9], _, 9, rfl, rfl, .inr ⟨rfl, ⟨_, rfl⟩, rfl⟩, rfl⟩,
   ⟨st false opd [.err 7], 7, _, rfl, rfl, rfl, rfl⟩⟩

/-- Operand records at the edge of the count check. -/
def counts (a b : Word) : Operands := { Operands.zero with a := a, b := b }

theorem witness_DecodeOfEncodeIsIdentity : (Instr.addr 31 .off .high).wellFormed = true := by decide
theorem witness_EncodeOfDecodeClearsUnreadFields : decode 0x1FF4#16 = .ok (.seton 31) := by decide
theorem witness_OpcodeMapReadsFields :
    (0x1FF0#16 &&& 0xE00F#16, 0x1FF1#16 &&& 0xE00F#16, 0x1FF2#16 &&& 0xE00F#16, 0x1FF3#16 &&& 0xE00F#16,
      0x1FF4#16 &&& 0xE00F#16, 0x1FF5#16 &&& 0xE00F#16, 0x1FF6#16 &&& 0xE00F#16, 0x1FF7#16 &&& 0xE00F#16) =
      (0x0#16, 0x1#16, 0x2#16, 0x3#16, 0x4#16, 0x5#16, 0x6#16, 0x7#16) ∧
    (0x1FF8#16 &&& 0xE00F#16, 0x1FF9#16 &&& 0xE00F#16, 0x1FFA#16 &&& 0xE00F#16, 0x1FFB#16 &&& 0xE00F#16,
      0x1FFC#16 &&& 0xE00F#16, 0x1FFD#16 &&& 0xE00F#16, 0x1FFE#16 &&& 0xE00F#16) =
      (0x8#16, 0x9#16, 0xA#16, 0xB#16, 0xC#16, 0xD#16, 0xE#16) := by decide
theorem witness_IllegalWordsRaise :
    ((word false 0x000F#16 Operands.zero []).cfg.WF ∧ (0x000F#16).toNat % 16 = 15) ∧
    ((word false 0x2000#16 Operands.zero []).cfg.WF ∧ (0x2000#16).toNat / 8192 ≠ 0) := by decide
theorem witness_UnreadFieldsAreIgnored :
    (decode 0x0034#16 = .ok (.seton 3) ∧ 0x1E34#16 &&& (Instr.seton 3).readMask = 0x0034#16 &&& (Instr.seton 3).readMask) ∧
    (Instr.seton 3).AgreeOnRead (counts 5 6) (counts 5 7) ∧
    ∃ t, exec (.seton 3) (st true (counts 5 6) [ans []]) = .next t :=
  ⟨by decide, rfl, _, rfl⟩
theorem witness_AssembledLines_chintS : (-2147483648 : Int) ≤ -2147483648 ∧ (2147483647 : Int) ≤ 2147483647 ∧
    (lineCommand (.chintS (-2147483648))).opd.n = 0x80000000#32 ∧ (lineCommand (.chintS 2147483647)).opd.n = 0x7FFFFFFF#32 := by
  decide
theorem witness_AssembledLines : (line false (.seton (.raw 31) 4095#16) []).cfg.WF ∧
    (line false (.seton (.raw 31) 4095#16) []).inputs = .command (lineCommand (.seton (.raw 31) 4095#16)) :: [] := by decide
theorem witness_StepRunsTheDecodedCommand : (word true 0x0104#16 (counts 0 0) []).cfg.WF ∧
    (word true 0x0104#16 (counts 0 0) []).inputs = .command { cw := 0x0104#16, opd := counts 0 0 } :: [] ∧
    decode 0x0104#16 = .ok (.seton 16) := by decide

/-- R9 at the edge of each condition: configurations that meet it and, one address further, do not. -/
theorem witness_OnlyAnIllFormedConfigurationStops_channels :
    Config.WF { mode1Addr := 0x00#8, chBase := 0xC0#8, allBase := 0xBC#8, devAddr := 0 } ∧
    ¬ Config.WF { mode1Addr := 0x00#8, chBase := 0xC1#8, allBase := 0xBC#8, devAddr := 0 } := ⟨by decide, by decide⟩
theorem witness_OnlyAnIllFormedConfigurationStops_broadcast :
    Config.WF { mode1Addr := 0x00#8, chBase := 0x06#8, allBase := 0xFC#8, devAddr := 0 } ∧
    ¬ Config.WF { mode1Addr := 0x00#8, chBase := 0x06#8, allBase := 0xFD#8, devAddr := 0 } ∧
    Config.WF { mode1Addr := 0x00#8, chBase := 0x06#8, allBase := 0x46#8, devAddr := 0 } ∧
    ¬ Config.WF { mode1Addr := 0x00#8, chBase := 0x06#8, allBase := 0x45#8, devAddr := 0 } :=
  ⟨by decide, by decide, by decide, by decide⟩
theorem witness_OnlyAnIllFormedConfigurationStops_mode1 :
    Config.WF { mode1Addr := 0xFE#8, chBase := 0x06#8, allBase := 0xFA#8, devAddr := 0 } ∧
    ¬ Config.WF { mode1Addr := 0xFD#8, chBase := 0x06#8, allBase := 0xFA#8, devAddr := 0 } ∧
    Config.WF { mode1Addr := 0x05#8, chBase := 0x06#8, allBase := 0xFA#8, devAddr := 0 } ∧
    ¬ Config.WF { mode1Addr := 0x06#8, chBase := 0x06#8, allBase := 0xFA#8, devAddr := 0 } :=
  ⟨by decide, by decide, by decide, by decide⟩
theorem witness_Apart_met : Config.default.Apart := by
  refine ⟨by decide, by decide, ?_, by decide⟩
  intro a h1 h2
  have e1 : Config.default.allBase.toNat = 250 := rfl
  have e2 : Config.default.chBase.toNat = 6 := rfl
  have e3 : Config.default.mode1Addr.toNat = 0 := rfl
  rw [e1] at h1 h2
  rw [e2, e3]
  omega
theorem witness_Apart_broken : ¬ Config.Apart { Config.default with chBase := 0xC1#8 } := fun h => absurd h.1 (by decide)
theorem witness_IdleStep : (idle true [] []).cfg.WF ∧ (idle true [] []).inputs = [] ∧ (idle true [] []).opd = none := by decide
theorem witness_ResetUnsetsTheGate :
    (idle true [] [.reset]).inputs = .reset :: [] ∧
    ∃ t, step (idle true [] [.reset]) = .next t ∧ t.ai = false :=
  ⟨rfl, _, rfl, rfl⟩
theorem witness_OneCommandPerStep : (line false .getall []).cfg.WF ∧
    (line false .getall []).inputs = .command (lineCommand .getall) :: [] := by decide
theorem witness_RunsTakeInputsInOrder : (line false .getall []).cfg.WF := by decide

/-- CHINT's integer at both ends of each clause. -/
theorem witness_ChintConvertsTheInteger :
    ((15#32).toNat : Int) = (15 : Nat) ∧ (15 : Int) < ((16#32).toNat : Int) ∧ (15#32).toInt = (15 : Nat) ∧
    (15 : Int) < (16#32).toInt ∧ (0xFFFFFFFF#32).toInt < 0 ∧ ((0#32).toNat : Int) = (0 : Nat) := by decide
theorem witness_ChannelIntegerBijection :
    (15#32 = BitVec.ofNat 32 15 ∧ ¬ (0 ≤ (0x80000000#32).toInt ∧ (0x80000000#32).toInt ≤ 15) ∧ 15 < (16#32).toNat) ∧
    ∃ t r, exec (.chint false) (st false { Operands.zero with n := 15#32 } []) = .next t ∧ t.res = some r ∧
      r.rch = some 15#5 :=
  ⟨by decide, _, _, rfl, rfl, rfl⟩
theorem witness_ChannelCheckRunsFirst : (Instr.geton 17).channel? = some 17 ∧ 16 < 17 ∧ (Instr.geton 16).channel? = some 16 := by
  decide
theorem witness_Addresses : Config.default.WF := by decide
theorem witness_CountsAreChecked :
    (∀ ch, (Instr.seton 16).channel? = some ch → ch ≤ 16) ∧ (∃ c ∈ (Instr.seton 16).counts (counts 4096 0), 4095 < c.toNat) ∧
    (∀ c ∈ (Instr.seton 16).counts (counts 4095 0), c.toNat ≤ 4095) :=
  ⟨by simp [Instr.channel?], by simp [Instr.counts, counts], by simp [Instr.counts, counts]⟩
theorem witness_Codec : (4095#16).toNat ≤ 4095 ∧ 4095 < (4096#16).toNat ∧ (0x0F#8).toNat / 16 = 0 := by decide

/-- The checks of every bus command pass on the largest counts and channel code. -/
theorem witness_ChecksPass (i : Instr) (h : i ∈ [Instr.seton 16, .setoff 16, .setfon 16, .setfoff 16, .geton 16, .getoff 16,
    .getfon 16, .getfoff 16, .setonoff 16, .setall, .getall]) :
    i.isBus = true ∧ i.ChecksPass { counts 4095 4095 with
      von := Vector.replicate 16 4095#16, voff := Vector.replicate 16 4095#16 } := by
  simp only [List.mem_cons, List.not_mem_nil, or_false] at h
  rcases h with rfl | rfl | rfl | rfl | rfl | rfl | rfl | rfl | rfl | rfl | rfl <;>
    exact ⟨rfl, by simp [Instr.channel?], by simp [Instr.counts, counts]⟩

/-- The operands of each clause of the single-channel and bulk statements, at the edge of its range. -/
theorem witness_BusCommandClauses :
    31 < 32 ∧ 16 < 17 ∧ 16 ≤ 16 ∧ (counts 4095 4095).a.toNat ≤ 4095 ∧ (counts 4095 4095).b.toNat ≤ 4095 ∧
    4095 < (counts 4096 0).a.toNat ∧ 4095 < (counts 0 4096).b.toNat ∧
    (∃ k : Fin 16, 4095 < ((Vector.ofFn fun k : Fin 16 => if k.val = 15 then 4096#16 else 0#16)[k]).toNat) ∧
    (∀ k : Fin 16, ((Vector.replicate 16 4095#16)[k]).toNat ≤ 4095) := by decide
theorem witness_GateRule_pure : (Instr.enc true).isBus = false ∧
    ∃ t, exec (.enc true) (st false (counts 4095 0) []) = .next t := ⟨rfl, _, rfl⟩
theorem witness_OnlyTheGateWriteSetsTheGate :
    ∃ t, step (line false .getall [ans [], ans []]) = .next t ∧ t.ai = true := ⟨_, rfl, rfl⟩
theorem witness_Runs :
    HostInput.reset ∉ (idle false [ans [], ans []] [.command (lineCommand (.seton .all 1#16)), .reset]).inputs.take 1 ∧
    ∃ t, runSteps 1 (idle false [ans [], ans []] [.command (lineCommand (.seton .all 1#16)), .reset]) = .next t ∧
      t.ai = true ∧ t.inputs = [.reset] := ⟨by decide, _, rfl, rfl, rfl⟩
theorem witness_BusSkeleton_ok :
    ∃ t r, exec (.seton 16) (st false (counts 4095 0) [ans [], ans []]) = .next t ∧ t.res = some r ∧ r.status = .ok :=
  ⟨_, _, rfl, rfl, rfl⟩
theorem witness_BroadcastOnlyMovesTheAddress :
    (Instr.setonoff, 0, 4) ∈ [(Instr.seton, 0, 2), (Instr.setoff, 2, 2), (Instr.setfon, 0, 2), (Instr.setfoff, 2, 2),
      (Instr.geton, 0, 0), (Instr.getoff, 2, 0), (Instr.getfon, 0, 0), (Instr.getfoff, 2, 0), (Instr.setonoff, 0, 4)] ∧
    (st true (counts 4095 4096) []).cfg.WF ∧ (15 : Nat) ≤ 15 ∧
    (∃ c ∈ (Instr.setonoff 15).counts (st true (counts 4095 4096) []).operands, 4095 < c.toNat) ∧
    ∀ c ∈ (Instr.setonoff 15).counts (st true (counts 4095 4095) []).operands, c.toNat ≤ 4095 :=
  ⟨by simp, by decide, by decide, ⟨4096#16, by simp [Instr.counts, st, State.operands, counts], by decide⟩,
    by simp [Instr.counts, st, State.operands, counts]⟩
theorem witness_TransportAnswersInShape : (64 : Nat) ≤ 64 ∧ (st true Operands.zero [.err 1]).answers = .err 1 :: [] ∧
    (st true Operands.zero []).answers = [] := by decide
theorem witness_RequestsStayInTheAddressMap :
    (∃ s t : State, s.cfg.WF ∧ exec (.setonoff 16) s = .next t ∧
      t.log = s.log ++ [W [0x00, 0x20], W [0xFA, 0xFF, 0x0F, 0x00, 0x00]]) ∧
    ∃ s t : State, step s = .next t ∧ t.log = s.log ++ [W [0x08, 0x01, 0x00]] :=
  ⟨⟨st false (counts 4095 0) [ans [], ans []], _, by decide, rfl, rfl⟩,
    line true (.setoff (.c 0) 1#16) [ans []], _, rfl, rfl⟩
theorem witness_ErrorsLeaveBehind :
    (∃ t r, exec (.seton 0) (st false (counts 1 0) [.err 7]) = .next t ∧ t.res = some r ∧ r.status = .busError) ∧
    (∃ t r, exec (.seton 0) (st false (counts 1 0) [ans [], .err 7]) = .next t ∧ t.res = some r ∧ r.status = .busError) ∧
    (∃ t r, exec (.seton 0) (st false (counts 4096 0) []) = .next t ∧ t.res = some r ∧ r.status = .invalidCount) ∧
    (∃ t r, exec (.seton 17) (st false (counts 1 0) []) = .next t ∧ t.res = some r ∧ r.status = .invalidChannel) :=
  ⟨⟨_, _, rfl, rfl, rfl⟩, ⟨_, _, rfl, rfl, rfl⟩, ⟨_, _, rfl, rfl, rfl⟩, ⟨_, _, rfl, rfl, rfl⟩⟩
theorem witness_StepKeepsTheInvariant : Inv (line false .getall [ans [], ans []]) ∧
    ∃ t, step (line false .getall [ans [], ans []]) = .next t := by
  refine ⟨⟨by decide, ?_, ?_, ?_, ?_, ?_, rfl, ?_⟩, _, rfl⟩
  · intro h; cases h
  · intro before t after h; cases before <;> cases h
  · intro t h; cases h
  · intro t h; cases h
  · intro t h; cases h
  · intro r h; cases h
/-- What a command that completes has to do with: a command that logs nothing and one that logs two transactions. -/
theorem witness_CompletedCommand :
    (∃ t, exec .dec (st false Operands.zero []) = .next t ∧ t.log = []) ∧
    (∃ t, exec .getall (st false Operands.zero [ans [], ans []]) = .next t ∧ t.log.length = 2) := ⟨⟨_, rfl, rfl⟩, _, rfl, rfl⟩

/-- Each status at the edge of its cause. -/
theorem witness_StatusCodesAndTheirRaisers :
    (∃ t r, exec (.chint false) (st false { Operands.zero with n := 16#32 } []) = .next t ∧ t.res = some r ∧
      r.status = .invalidChannel) ∧
    (∃ t r, exec (.chint true) (st false { Operands.zero with n := 0xFFFFFFFF#32 } []) = .next t ∧ t.res = some r ∧
      r.status = .invalidChannel) ∧
    (∃ t r, exec (.chint true) (st false { Operands.zero with n := 16#32 } []) = .next t ∧ t.res = some r ∧
      r.status = .invalidChannel) ∧
    (∃ t r, exec (.addr 17 .on .low) (st false Operands.zero []) = .next t ∧ t.res = some r ∧ r.status = .invalidChannel) ∧
    (∃ t r, exec (.setonoff 16) (st false (counts 4095 4096) []) = .next t ∧ t.res = some r ∧ r.status = .invalidCount) ∧
    (∃ t r, exec .getall (st true Operands.zero [.err 3]) = .next t ∧ t.res = some r ∧ r.status = .busError) ∧
    (∃ t r, step (word false 0x2000#16 Operands.zero []) = .next t ∧ t.res = some r ∧ r.status = .illegalCommand) :=
  ⟨⟨_, _, rfl, rfl, rfl⟩, ⟨_, _, rfl, rfl, rfl⟩, ⟨_, _, rfl, rfl, rfl⟩, ⟨_, _, rfl, rfl, rfl⟩, ⟨_, _, rfl, rfl, rfl⟩,
    ⟨_, _, rfl, rfl, rfl⟩, _, _, rfl, rfl, rfl⟩

/-- The clauses of the priority statement: a presented command whose gate write fails, one whose payload fails, one that runs. -/
theorem witness_FirstErrorInOrderIsDelivered :
    (∃ s : State, s.cfg.WF ∧ s.inputs = .command { cw := 0x0008#16, opd := Operands.zero } :: [] ∧ s.ai = false ∧
      s.peek = .err 7) ∧
    (∃ s g : State, s.cfg.WF ∧ s.inputs = .command { cw := 0x0008#16, opd := Operands.zero } :: [] ∧ s.ai = false ∧
      GatePassed s g ∧ g.peek = .err 7) ∧
    (∃ (s g : State) (d : Vector Byte 64), s.cfg.WF ∧ s.inputs = .command { cw := 0x0008#16, opd := Operands.zero } :: [] ∧
      GatePassed s g ∧ g.peek = .ok d) :=
  ⟨⟨word false 0x0008#16 Operands.zero [.err 7], by decide, rfl, rfl, rfl⟩,
   ⟨word false 0x0008#16 Operands.zero [ans [], .err 7], _, by decide, rfl, rfl, .inr ⟨rfl, ⟨_, rfl⟩, rfl⟩, rfl⟩,
   ⟨word true 0x0008#16 Operands.zero [ans []], _, _, by decide, rfl, .inl ⟨rfl, rfl⟩, rfl⟩⟩

/-- Each clause of the read-back statement, with the fixture's answer scripted: channel 15 itself, and channel 0 by broadcast. -/
theorem witness_ProgrammedCountsReadBack :
    (∃ (s t : State) (new : List Transaction), s.cfg.WF ∧ exec (.setonoff 15) s = .next t ∧ t.res = some { status := .ok } ∧
      t.log = s.log ++ new ∧ t.peek = rfAnswer (rfReplay s.cfg new rfZero) (addrOf s.cfg 15 .on .low)) ∧
    (∃ (s t : State) (new : List Transaction), s.cfg.WF ∧ exec (.setonoff 16) s = .next t ∧ t.res = some { status := .ok } ∧
      t.log = s.log ++ new ∧ t.peek = rfAnswer (rfReplay s.cfg new rfZero) (addrOf s.cfg 0 .off .low)) :=
  ⟨⟨st true (counts 4095 1) [ans [],
      rfAnswer (rfReplay Config.default [W [0x42, 0xFF, 0x0F, 0x01, 0x00]] rfZero) (addrOf Config.default 15 .on .low)],
    _, [W [0x42, 0xFF, 0x0F, 0x01, 0x00]], by decide, rfl, rfl, rfl, rfl⟩,
   ⟨st true (counts 4095 1) [ans [],
      rfAnswer (rfReplay Config.default [W [0xFA, 0xFF, 0x0F, 0x01, 0x00]] rfZero) (addrOf Config.default 0 .off .low)],
    _, [W [0xFA, 0xFF, 0x0F, 0x01, 0x00]], by decide, rfl, rfl, rfl, rfl⟩⟩

/-- Each clause of the bulk read-back statement, with the fixture's answer scripted. -/
theorem witness_BulkProgrammedCountsReadBack :
    (∃ (s t : State) (new : List Transaction), s.cfg.WF ∧ exec .setall s = .next t ∧ t.res = some { status := .ok } ∧
      t.log = s.log ++ new ∧ t.peek = rfAnswer (rfReplay s.cfg new rfZero) (addrOf s.cfg 0 .on .low)) ∧
    (∃ (s t : State) (new : List Transaction), s.cfg.WF ∧ exec .setall s = .next t ∧ t.res = some { status := .ok } ∧
      t.log = s.log ++ new ∧ t.peek = rfAnswer (rfReplay s.cfg new rfZero) s.cfg.chBase) ∧
    (∃ (s t : State) (new : List Transaction), s.cfg.WF ∧ exec .setall s = .next t ∧ t.res = some { status := .ok } ∧
      t.log = s.log ++ new ∧ t.peek = rfAnswer (rfReplay s.cfg new rfZero) (addrOf s.cfg 15 .off .low)) :=
  ⟨⟨st true Operands.zero [ans [],
      rfAnswer (rfReplay Config.default [W (0x06#8 :: List.replicate 64 0x00#8)] rfZero) (addrOf Config.default 0 .on .low)],
    _, [W (0x06#8 :: List.replicate 64 0x00#8)], by decide, rfl, rfl, rfl, rfl⟩,
   ⟨st true Operands.zero [ans [], rfAnswer (rfReplay Config.default [W (0x06#8 :: List.replicate 64 0x00#8)] rfZero) 0x06#8],
    _, [W (0x06#8 :: List.replicate 64 0x00#8)], by decide, rfl, rfl, rfl, rfl⟩,
   ⟨st true Operands.zero [ans [],
      rfAnswer (rfReplay Config.default [W (0x06#8 :: List.replicate 64 0x00#8)] rfZero) (addrOf Config.default 15 .off .low)],
    _, [W (0x06#8 :: List.replicate 64 0x00#8)], by decide, rfl, rfl, rfl, rfl⟩⟩

end Sys2Proof.Tests
end

/-! ## 20_memory.md: what a command adds to the transaction log -/

namespace Sys2Proof.Machine

/-- The payload request of a command has the shape of its row in the table of R35. -/
theorem payloadShape_of_payload? {c : Config} {o : Operands} {i : Instr} {p : Request}
    (h : i.payload? c o = some p) : i.PayloadShape c.devAddr p := by
  cases i <;> simp only [Instr.payload?, reduceCtorEq, Option.some.injEq] at h <;> subst h
  case setall => exact ⟨_, _, bulkFrame_length o, rfl⟩
  case setonoff => exact ⟨_, _, _, _, _, rfl⟩
  case seton | setoff | setfon | setfoff => exact ⟨_, _, _, rfl⟩
  case geton | getoff | getfon | getfoff | getall => exact ⟨_, rfl⟩

/-- What a passing gate adds to the log is the gate write or nothing. -/
theorem req_of_mem_gateEntries {s : State} {x : Transaction} (h : x ∈ gateEntries s) : x.req = gateRequest s.cfg := by
  unfold gateEntries at h
  split at h
  · cases h
  · rw [List.mem_singleton.mp h]; rfl

/-- The log only grows, and each request a command adds to it is the gate write of a bus command or the command's payload
request. -/
theorem exec_log {i : Instr} {s t : State} (h : exec i s = .next t) :
    ∃ new, t.log = s.log ++ new ∧ ∀ x ∈ new,
      (i.isBus = true ∧ x.req = gateRequest s.cfg) ∨ i.payload? s.cfg s.operands = some x.req := by
  obtain ⟨r, -, -, -, rfl, -⟩ | ⟨hb, -, p, hp, hrun⟩ := exec_cases h
  · exact ⟨[], by simp, by simp⟩
  · obtain ⟨e, -, -, rfl⟩ | ⟨g, hg, hend⟩ := hrun
    · refine ⟨_, by rw [raiseBus_log, State.submit_log], fun x hx => .inl ⟨hb, ?_⟩⟩
      rw [List.mem_singleton.mp hx]
    · obtain ⟨-, -, -, -, -, hlog⟩ := hg.facts
      have htlog : t.log = s.log ++ (gateEntries s ++ [{ req := p, resp := respond g.peek p }]) := by
        obtain ⟨e, -, rfl⟩ | ⟨d, -, rfl⟩ := hend <;> simp [hlog]
      refine ⟨_, htlog, fun x hx => ?_⟩
      obtain hgate | hpay := List.mem_append.mp hx
      · exact .inl ⟨hb, req_of_mem_gateEntries hgate⟩
      · rw [List.mem_singleton.mp hpay]; exact .inr hp

/-- Settles O41: each logged request is the gate write or the command's payload request, which has the table's shape. -/
theorem transactionsHaveTheTableShapes : Obligations.TransactionsHaveTheTableShapes := by
  intro i s t h
  obtain ⟨new, hlog, hnew⟩ := exec_log h
  exact ⟨new, hlog, fun x hx => (hnew x hx).imp_right payloadShape_of_payload?⟩

end Sys2Proof.Machine

/-! ## 30_encoding.md: the decoder by opcode and by field, and what a command does not read -/

namespace Sys2Proof

/-! ### The fields of a word -/

theorem whichField_eq (w : Word) : whichField w = if w.toNat / 512 % 2 = 1 then .off else .on := by
  simp only [whichField, getLsbD_eq_div, decide_eq_true_eq]; rfl

theorem halfField_eq (w : Word) : halfField w = if w.toNat / 1024 % 2 = 1 then .high else .low := by
  simp only [halfField, getLsbD_eq_div, decide_eq_true_eq]; rfl

theorem fullField_eq (w : Word) : fullField w = decide (w.toNat / 2048 % 2 = 1) := getLsbD_eq_div w 11

theorem sgnField_eq (w : Word) : sgnField w = decide (w.toNat / 4096 % 2 = 1) := getLsbD_eq_div w 12

/-- Words that agree under a mask agree on every bit of the mask. -/
theorem getLsbD_congr_of_mask {v w m : Word} (h : v &&& m = w &&& m) {k : Nat} (hm : m.getLsbD k = true) :
    v.getLsbD k = w.getLsbD k := by
  simpa [hm] using congrArg (BitVec.getLsbD · k) h

/-- Words that agree under a mask agree on every field that lies in the mask. -/
theorem extractLsb_congr_of_mask {v w m : Word} (h : v &&& m = w &&& m) {hi lo : Nat}
    (hm : m.extractLsb hi lo = BitVec.allOnes _) : v.extractLsb hi lo = w.extractLsb hi lo := by
  simpa [BitVec.extractLsb_and, hm] using congrArg (BitVec.extractLsb hi lo) h

/-! ### The decoder, said once -/

/-- The command of the same opcode with the fields it reads taken from the word `w` (R59). -/
def Instr.withFields (w : Word) : Instr → Instr
  | .chint _ => .chint (sgnField w)
  | .addr _ _ _ => .addr (chField w).toNat (whichField w) (halfField w)
  | .enc _ => .enc (fullField w)
  | .dec => .dec
  | .seton _ => .seton (chField w).toNat
  | .setoff _ => .setoff (chField w).toNat
  | .setfon _ => .setfon (chField w).toNat
  | .setfoff _ => .setfoff (chField w).toNat
  | .geton _ => .geton (chField w).toNat
  | .getoff _ => .getoff (chField w).toNat
  | .getfon _ => .getfon (chField w).toNat
  | .getfoff _ => .getfoff (chField w).toNat
  | .setonoff _ => .setonoff (chField w).toNat
  | .setall => .setall
  | .getall => .getall

theorem Instr.opcode_lt (i : Instr) : i.opcode < 15 := by cases i <;> simp [Instr.opcode]

theorem decode_of_opField {w : Word} {i : Instr} (hrsv : rsvField w = 0#3) (hop : (opField w).toNat = i.opcode) :
    decode w = .ok (i.withFields w) := by
  rw [decode, if_pos hrsv]
  cases i <;> simp only [decodeOp, hop, Instr.opcode, Instr.withFields]

/-- A word decodes to a command exactly when `rsv` is 0, `op` is the command's opcode and the command has the word's fields. -/
theorem decode_ok_iff {w : Word} {i : Instr} :
    decode w = .ok i ↔ rsvField w = 0#3 ∧ (opField w).toNat = i.opcode ∧ i.withFields w = i := by
  constructor
  · intro h
    rw [decode] at h
    split at h
    · next hrsv =>
      rw [decodeOp] at h
      split at h <;> cases h <;> exact ⟨hrsv, ‹_›, rfl⟩
    · cases h
  · rintro ⟨hrsv, hop, hfields⟩
    rw [decode_of_opField hrsv hop, hfields]

/-- A word is illegal exactly when `op` is 0xF or `rsv` is not 0 (R60). -/
theorem decode_error_iff {w : Word} : (∃ e, decode w = .error e) ↔ w.toNat % 16 = 15 ∨ w.toNat / 8192 ≠ 0 := by
  by_cases hrsv : w.toNat / 8192 = 0
  · constructor
    · rintro ⟨e, h⟩
      rw [decode_eq_decodeOp hrsv, decodeOp, opField_toNat] at h
      split at h <;> cases h
      simp only [imp_false] at *
      omega
    · rintro (hop | hne)
      · exact ⟨_, decode_reservedOpcode hrsv hop⟩
      · exact absurd hrsv hne
  · exact iff_of_true ⟨_, decode_reservedBits hrsv⟩ (.inr hrsv)

/-- R59: `cw & 0xE00F == op` selects the command of opcode `op`. -/
theorem decode_of_opcodeMask {w : Word} (i : Instr) (h : w &&& 0xE00F#16 = BitVec.ofNat 16 i.opcode) :
    decode w = .ok (i.withFields w) := by
  have hlt := i.opcode_lt
  have hmask : 8192 * (w.toNat / 8192) + w.toNat % 16 = i.opcode := by
    rw [← opcodeMask_toNat, h, BitVec.toNat_ofNat]
    omega
  exact decode_of_opField ((rsvField_eq_zero w).mpr (by omega)) (by rw [opField_toNat]; omega)

theorem decode_ok_iff_opcodeMask (w : Word) : (∃ i, decode w = .ok i) ↔ (w &&& 0xE00F#16).toNat < 15 := by
  have hlegal : (∃ i, decode w = .ok i) ↔ ¬ ∃ e, decode w = .error e := by cases decode w <;> simp
  rw [hlegal, decode_error_iff, opcodeMask_toNat]
  omega

/-- Settles O3: the opcode under the mask selects the command, whose fields are the word's by arithmetic. -/
theorem opcodeMapReadsFields : Obligations.OpcodeMapReadsFields := by
  intro w
  dsimp only
  rw [← chField_toNat, ← whichField_eq, ← halfField_eq, ← fullField_eq, ← sgnField_eq]
  exact ⟨decode_of_opcodeMask (.chint false), decode_of_opcodeMask (.addr 0 .on .low), decode_of_opcodeMask (.enc false),
    decode_of_opcodeMask .dec, decode_of_opcodeMask (.seton 0), decode_of_opcodeMask (.setoff 0),
    decode_of_opcodeMask (.setfon 0), decode_of_opcodeMask (.setfoff 0), decode_of_opcodeMask (.geton 0),
    decode_of_opcodeMask (.getoff 0), decode_of_opcodeMask (.getfon 0), decode_of_opcodeMask (.getfoff 0),
    decode_of_opcodeMask (.setonoff 0), decode_of_opcodeMask .setall, decode_of_opcodeMask .getall,
    decode_ok_iff_opcodeMask w⟩

/-! ### Fields of the word that a command does not read -/

theorem Instr.readMask_covers_op (i : Instr) : i.readMask.extractLsb 3 0 = BitVec.allOnes _ := by
  cases i <;> simp only [Instr.readMask] <;> decide

theorem Instr.readMask_covers_rsv (i : Instr) : i.readMask.extractLsb 15 13 = BitVec.allOnes _ := by
  cases i <;> simp only [Instr.readMask] <;> decide

/-- A command takes the same fields from words that agree on the bits it reads. -/
theorem Instr.withFields_congr {v w : Word} {i : Instr} (h : v &&& i.readMask = w &&& i.readMask) :
    i.withFields v = i.withFields w := by
  cases i <;> simp only [Instr.readMask] at h
  case chint sgn => exact congrArg Instr.chint (getLsbD_congr_of_mask h (by decide))
  case enc full => exact congrArg Instr.enc (getLsbD_congr_of_mask h (by decide))
  case dec | setall | getall => rfl
  case addr ch which half =>
    have hch : chField v = chField w := extractLsb_congr_of_mask h (by decide)
    have hwhich : v.getLsbD 9 = w.getLsbD 9 := getLsbD_congr_of_mask h (by decide)
    have hhalf : v.getLsbD 10 = w.getLsbD 10 := getLsbD_congr_of_mask h (by decide)
    simp only [Instr.withFields, whichField, halfField, hch, hwhich, hhalf]
  all_goals
    have hch : chField v = chField w := extractLsb_congr_of_mask h (by decide)
    simp only [Instr.withFields, hch]

/-- R60: a field of the word that a command does not read is ignored. -/
theorem decode_of_readMask {v w : Word} {i : Instr} (hd : decode w = .ok i) (h : v &&& i.readMask = w &&& i.readMask) :
    decode v = .ok i := by
  obtain ⟨hrsv, hop, hfields⟩ := decode_ok_iff.mp hd
  have hrsv' : rsvField v = rsvField w := extractLsb_congr_of_mask h i.readMask_covers_rsv
  have hop' : opField v = opField w := extractLsb_congr_of_mask h i.readMask_covers_op
  exact decode_ok_iff.mpr ⟨hrsv'.trans hrsv, hop' ▸ hop, (Instr.withFields_congr h).trans hfields⟩

end Sys2Proof

namespace Sys2Proof.Machine

/-- A step that is presented an illegal word takes the command, delivers ILLEGAL_COMMAND and does nothing else. -/
theorem step_illegal {s : State} {c : Command} {rest : List HostInput} {e : Illegal} (hc : s.cfg.WF)
    (hi : s.inputs = .command c :: rest) (hd : decode c.cw = .error e) :
    step s = .next { s with inputs := rest, opd := none, res := some { status := .illegalCommand } } := by
  rw [step, accept_illegal hc hi hd]; rfl

/-! ### Fields of the operand record that a command does not read -/

theorem counts_congr {o p : Operands} {i : Instr} (h : i.AgreeOnRead o p) : i.counts o = i.counts p := by
  cases i <;> simp_all only [Instr.AgreeOnRead, Instr.counts]

theorem payload?_congr {o p : Operands} {i : Instr} (c : Config) (h : i.AgreeOnRead o p) :
    i.payload? c o = i.payload? c p := by
  cases i <;> simp_all only [Instr.AgreeOnRead, Instr.payload?, bulkFrame]

/-- The bus skeleton does not look at the operand port. -/
theorem runRequest_opd (p : Request) (r : Vector Byte 64 → Result) (s : State) (opd : Option Operands) :
    runRequest p r { s with opd := opd } = runRequest p r s := by
  obtain ⟨new, -, h⟩ := runRequest_update p r s
  exact (h opd s.res s.log s.inputs).trans (h s.opd s.res s.log s.inputs).symm

theorem exec_pure_of_agreeOnRead {i : Instr} {s : State} {o : Operands} (hb : i.isBus = false)
    (h : i.AgreeOnRead s.operands o) : exec i { s with opd := some o } = exec i s := by
  cases i <;> simp only [Instr.isBus, Bool.true_eq_false] at hb
  case chint sgn => simp only [exec, execChint, State.operands_mk, show s.operands.n = o.n from h]; rfl
  case addr ch which half => rfl
  case enc full => simp only [exec, execEnc, State.operands_mk, show s.operands.a = o.a from h]; rfl
  case dec =>
    obtain ⟨hl, hh⟩ : s.operands.l = o.l ∧ s.operands.h = o.h := h
    simp only [exec, execDec, State.operands_mk, hl, hh]; rfl

/-- R60: a command does the same with any operand record that agrees on the fields it reads. -/
theorem exec_of_agreeOnRead {i : Instr} {s : State} {o : Operands} (h : i.AgreeOnRead s.operands o) :
    exec i { s with opd := some o } = exec i s := by
  have hcounts := counts_congr h
  cases hb : i.isBus with
  | false => exact exec_pure_of_agreeOnRead hb h
  | true =>
    by_cases hch : ∃ ch, i.channel? = some ch ∧ 16 < ch
    · obtain ⟨ch, hsome, hgt⟩ := hch
      rw [exec_bad_channel hsome hgt, exec_bad_channel hsome hgt]; rfl
    · have hle : ∀ ch, i.channel? = some ch → ch ≤ 16 := fun ch hsome => Nat.le_of_not_lt fun hgt => hch ⟨ch, hsome, hgt⟩
      by_cases hbad : ∃ c ∈ i.counts s.operands, 4095 < c.toNat
      · rw [exec_bad_count hle hbad, exec_bad_count hle (hcounts ▸ hbad)]; rfl
      · have hpass : i.ChecksPass s.operands := ⟨hle, fun c hc => Nat.le_of_not_lt fun hgt => hbad ⟨c, hc, hgt⟩⟩
        have hpass' : i.ChecksPass o := ⟨hle, hcounts ▸ hpass.2⟩
        obtain ⟨p, hp, hs⟩ := exec_bus hb hpass
        obtain ⟨q, hq, ho⟩ := exec_bus (s := { s with opd := some o }) hb hpass'
        have hpq : p = q := Option.some.inj (hp.symm.trans ((payload?_congr s.cfg h).trans hq))
        rw [hs, ho, runRequest_opd, hpq]

/-- Settles O4: an illegal word ends at the decoder, and what a command does not read reaches neither it nor `exec`. -/
theorem illegalWordsRaiseAndUnreadFieldsAreIgnored : Obligations.IllegalWordsRaiseAndUnreadFieldsAreIgnored := by
  refine ⟨fun s c rest hc hi hillegal => ?_, fun w v i => decode_of_readMask, fun i s t o h hs => ?_⟩
  · obtain ⟨e, he⟩ := decode_error_iff.mpr hillegal
    exact step_illegal hc hi he
  · rw [exec_of_agreeOnRead h, hs]

/-! ### The result record -/

theorem Result.legal_busError (e : BusErr) : ({ status := .busError, berr := some e } : Result).Legal where
  berr := by simp
  onError _ := rfl
  channel := by simp
  count := by simp
  onCounts := by simp
  offCounts := by simp

/-- What a command delivers is legal, and on OK holds the fields R53 lists for the command. -/
theorem exec_result {i : Instr} {s t : State} (h : exec i s = .next t) :
    ∃ r, t.res = some r ∧ r.Legal ∧ (r.status = .ok → i.DeliversFields r) := by
  have bus (e : BusErr) (u : State) : ∃ r, (raiseBus e u).res = some r ∧ r.Legal ∧ (r.status = .ok → i.DeliversFields r) :=
    ⟨_, raiseBus_res e u, Result.legal_busError e, nofun⟩
  obtain ⟨r, hlegal, hfields, -, rfl, -⟩ | ⟨hb, -, p, -, ⟨e, -, -, rfl⟩ | ⟨g, -, ⟨e, -, rfl⟩ | ⟨d, -, rfl⟩⟩⟩ := exec_cases h
  · exact ⟨r, rfl, hlegal, fun hok => (hfields hok).2⟩
  · exact bus e _
  · exact bus e _
  · obtain ⟨-, hlegal, hfields⟩ := busResult_spec hb d
    exact ⟨_, rfl, hlegal, fun _ => hfields⟩

/-- Settles O45: every command completes, and each way it can end delivers a legal result. -/
theorem resultsHoldTheListedFields : Obligations.ResultsHoldTheListedFields := by
  intro i s
  obtain ⟨t, ht⟩ := exec_next i s
  obtain ⟨r, hres, hlegal, hfields⟩ := exec_result ht
  exact ⟨t, r, ht, hres, hlegal, hfields⟩

end Sys2Proof.Machine

/-! ## 40_channel_id.md: CHINT, the channel check, and the laws of the conversion -/

namespace Sys2Proof.Machine

/-! ### CHINT -/

/-- A command has every word that it is assembled to and that decodes to it: what it does not read is ignored (R60). -/
theorem hasWord_of_decode {i : Instr} {w : Word} (he : encode i = w) (hd : decode w = .ok i) : HasWord i w :=
  ⟨he, fun _ hv => decode_of_readMask hd hv⟩

theorem chint_hasWord (sgn : Bool) : HasWord (.chint sgn) (if sgn = true then 0x1000#16 else 0x0000#16) := by
  cases sgn with
  | false => exact hasWord_of_decode (by decide) (by decide)
  | true => exact hasWord_of_decode (by decide) (by decide)

theorem chint_delivers_code {s : State} {sgn : Bool} {k : Nat} (hk : k ≤ 15) (hv : intOperand sgn s.operands.n = k) :
    Delivers (.chint sgn) s { status := .ok, rch := some (BitVec.ofNat 5 k) } := by
  have hrange : (0 : Int) ≤ k ∧ (k : Int) ≤ 15 := by omega
  simp only [Delivers, exec, execChint, hv, if_pos hrange, BitVec.ofInt_natCast]
  rfl

theorem chint_delivers_invalidChannel {s : State} {sgn : Bool}
    (hv : ¬ (0 ≤ intOperand sgn s.operands.n ∧ intOperand sgn s.operands.n ≤ 15)) :
    Delivers (.chint sgn) s { status := .invalidChannel } := by
  simp only [Delivers, exec, execChint, if_neg hv]
  rfl

/-- Settles O14: CHINT's integer is in 0..15 or it is not, and the word is one that decodes to CHINT. -/
theorem chintConvertsTheInteger : Obligations.ChintConvertsTheInteger := by
  intro s sgn
  refine ⟨chint_hasWord sgn, fun k hk hv => chint_delivers_code hk hv, fun hv => chint_delivers_invalidChannel ?_⟩
  rintro ⟨hlow, hhigh⟩
  exact hv.elim (Int.not_lt.mpr hlow) (Int.not_lt.mpr hhigh)

/-! ### The channel check -/

/-- A command whose checks pass ends with OK or BUS_ERROR, or is CHINT with an integer outside 0..15. -/
theorem exec_status_of_checksPass {i : Instr} {s t : State} (hpass : i.ChecksPass s.operands) (h : exec i s = .next t) :
    ∃ r, t.res = some r ∧
      (r.status = .ok ∨ r.status = .busError ∨ r.status = .invalidChannel ∧ ∃ sgn, i = .chint sgn) := by
  cases hb : i.isBus with
  | false =>
    obtain ⟨r, -, -, -, hstatus, hexec⟩ := exec_pure hb s.cfg s.operands
    cases (hexec s rfl rfl).symm.trans h
    exact ⟨r, rfl, (hstatus hpass).imp_right .inr⟩
  | true =>
    obtain ⟨p, -, hexec⟩ := exec_bus hb hpass
    cases hexec.symm.trans h
    obtain ⟨e, -, -, hrun⟩ | ⟨g, -, ⟨e, -, hrun⟩ | ⟨d, -, hrun⟩⟩ := runRequest_cases p (busResult · i) s
    · exact ⟨_, hrun ▸ raiseBus_res e _, .inr (.inl rfl)⟩
    · exact ⟨_, hrun ▸ raiseBus_res e _, .inr (.inl rfl)⟩
    · exact ⟨_, hrun ▸ State.deliver_res _ _, .inl (busResult_spec hb d).1⟩

/-- A command that reads a channel code 0..16 raises INVALID_COUNT or passes its checks; either way INVALID_CHANNEL is not
its status. -/
theorem exec_good_channel {i : Instr} {s : State} {ch : Nat} (h : i.channel? = some ch) (hle : ch ≤ 16) :
    ∃ t r, exec i s = .next t ∧ t.res = some r ∧ r.status ≠ .invalidChannel := by
  have hch : ∀ c, i.channel? = some c → c ≤ 16 := fun c hc => Option.some.inj (h.symm.trans hc) ▸ hle
  by_cases hbad : ∃ c ∈ i.counts s.operands, 4095 < c.toNat
  · exact ⟨_, _, exec_bad_count hch hbad, raise_res _ _, by decide⟩
  · have hpass : i.ChecksPass s.operands := ⟨hch, fun c hc => Nat.le_of_not_lt fun hgt => hbad ⟨c, hc, hgt⟩⟩
    obtain ⟨t, ht⟩ := exec_next i s
    obtain ⟨r, hres, hok | hbus | ⟨-, sgn, rfl⟩⟩ := exec_status_of_checksPass hpass ht
    · exact ⟨t, r, ht, hres, by simp [hok]⟩
    · exact ⟨t, r, ht, hres, by simp [hbus]⟩
    · cases h

/-- Settles O15: the channel check comes before every other one, and past it nothing but CHINT raises INVALID_CHANNEL. -/
theorem channelCheckRunsFirst : Obligations.ChannelCheckRunsFirst :=
  fun _ _ _ h => ⟨fun hgt => exec_bad_channel h hgt, fun hle => exec_good_channel h hle⟩

/-! ### The laws of the conversion -/

/-- An integer 0..15 reads the same unsigned and in two's complement. -/
theorem intOperand_ofNat (sgn : Bool) {n : Nat} (hn : n ≤ 15) : intOperand sgn (BitVec.ofNat 32 n) = n := by
  have hnat : (BitVec.ofNat 32 n).toNat = n := by rw [BitVec.toNat_ofNat]; omega
  cases sgn with
  | false => exact congrArg Nat.cast hnat
  | true =>
    have hint : (BitVec.ofNat 32 n).toInt = ((BitVec.ofNat 32 n).toNat : Int) := BitVec.toInt_eq_toNat_of_lt (by omega)
    exact hint.trans (congrArg Nat.cast hnat)

/-- R53 lists a channel code for CHINT only. -/
theorem eq_chint_of_deliversFields {i : Instr} {r : Result} {c : BitVec 5} (h : i.DeliversFields r) (hc : r.rch = some c) :
    ∃ sgn, i = .chint sgn := by
  cases i
  case chint sgn => exact ⟨sgn, rfl⟩
  case addr | getfon | getfoff => obtain ⟨_, rfl⟩ := h; cases hc
  case enc | dec | geton | getoff | getall => obtain ⟨_, _, rfl⟩ := h; cases hc
  case seton | setoff | setfon | setfoff | setonoff | setall => obtain rfl : r = { status := .ok } := h; cases hc

/-- A legal result that holds a channel code has status OK. -/
theorem Result.Legal.status_of_rch {r : Result} {c : BitVec 5} (h : r.Legal) (hc : r.rch = some c) : r.status = .ok := by
  by_contra hne
  rw [h.onError hne] at hc
  cases hc

/-- Settles O16: both readings of the integer go through the range check of CHINT, and a delivered channel code is a field of
a legal OK result. -/
theorem channelIntegerBijection : Obligations.ChannelIntegerBijection := by
  refine ⟨fun s sgn n hn hN => ⟨BitVec.ofNat 5 n, ?_, ?_⟩, fun s hv => chint_delivers_invalidChannel hv,
    fun s hv => chint_delivers_invalidChannel ?_, fun i s t r c h hres hrch => ?_⟩
  · rw [BitVec.toNat_ofNat]; omega
  · exact chint_delivers_code hn (by rw [hN, intOperand_ofNat sgn hn])
  · rintro ⟨-, hhigh⟩
    have hle : (s.operands.n.toNat : Int) ≤ 15 := hhigh
    omega
  · obtain ⟨r', hres', hlegal, hfields⟩ := exec_result h
    obtain rfl : r' = r := Option.some.inj (hres'.symm.trans hres)
    have hcode := hlegal.channel c hrch
    exact ⟨eq_chint_of_deliversFields (hfields (hlegal.status_of_rch hrch)) hrch, by omega⟩

end Sys2Proof.Machine

/-! ## 41_address_mux.md: the register address of a selection, and ADDR -/

namespace Sys2Proof

/-! ### The fields of an assembled word -/

section
variable (op : BitVec 4) (ch : BitVec 5) (which half full sgn : Bool)

@[simp] theorem chField_assemble : chField (assemble op ch which half full sgn) = ch := by
  ext k hk
  interval_cases k <;> simp [chField, assemble]

@[simp] theorem whichField_assemble : whichField (assemble op ch which half full sgn) = if which then .off else .on := by
  simp [whichField, assemble]

@[simp] theorem halfField_assemble : halfField (assemble op ch which half full sgn) = if half then .high else .low := by
  simp [halfField, assemble]

@[simp] theorem fullField_assemble : fullField (assemble op ch which half full sgn) = full := by
  simp [fullField, assemble]

@[simp] theorem sgnField_assemble : sgnField (assemble op ch which half full sgn) = sgn := by
  simp [sgnField, assemble]

end

theorem encode_opcodeMask (i : Instr) : encode i &&& 0xE00F#16 = BitVec.ofNat 16 i.opcode := by
  cases i <;> exact Laws.OpcodeBits.assemble_mask _ _ _ _ _ _

/-- A well-formed command's word holds the command's own fields. -/
theorem Instr.withFields_encode {i : Instr} (h : i.wellFormed = true) : i.withFields (encode i) = i := by
  cases i <;> simp only [Instr.wellFormed, decide_eq_true_eq] at h
  case chint | enc => simp [Instr.withFields, encode]
  case dec | setall | getall => rfl
  case addr ch which half =>
    cases which <;> cases half <;> simp [Instr.withFields, encode, whichBit, halfBit, Nat.mod_eq_of_lt h]
  all_goals simp [Instr.withFields, encode, assembleCh, Nat.mod_eq_of_lt h]

/-- R62: the opcode under the mask selects the command, and its fields are the word's. -/
theorem decode_encode {i : Instr} (h : i.wellFormed = true) : decode (encode i) = .ok i := by
  rw [decode_of_opcodeMask i (encode_opcodeMask i), Instr.withFields_encode h]

end Sys2Proof

namespace Sys2Proof.Machine

/-! ### The register address -/

theorem blockBase_all (c : Config) : blockBase c 16 = c.allBase.toNat := if_pos rfl

theorem blockBase_of_le (c : Config) {k : Nat} (hk : k ≤ 15) : blockBase c k = c.chBase.toNat + 4 * k :=
  if_neg (by omega)

theorem whichOffset_eq (w : Which) : 2 * whichOffset w = if w = .off then 2 else 0 := by cases w <;> rfl

theorem halfOffset_eq (h : Half) : halfOffset h = if h = .high then 1 else 0 := by cases h <;> rfl

/-- Settles O17: nothing is truncated, and the base is that of the broadcast block or of the channel's block. -/
theorem addressOfSelection : Obligations.AddressOfSelection := by
  intro c w h hc
  rw [← whichOffset_eq, ← halfOffset_eq]
  refine ⟨?_, fun k hk => ?_⟩
  · rw [addrOf_toNat hc (Nat.le_refl 16), blockBase_all, Nat.add_assoc]
  · rw [addrOf_toNat hc (by omega), blockBase_of_le c hk, Nat.add_assoc]

/-! ### ADDR -/

/-- R62: a well-formed command has the word it is assembled to. -/
theorem hasWord_of_encode {i : Instr} {w : Word} (hi : i.wellFormed = true) (he : encode i = w) : HasWord i w :=
  hasWord_of_decode he (he ▸ decode_encode hi)

/-- A channel code in its 5-bit field, widened to the word. -/
theorem setWidth_channelCode {ch : Nat} (hch : ch < 32) : (BitVec.ofNat 5 ch).setWidth 16 = BitVec.ofNat 16 ch := by
  apply BitVec.eq_of_toNat_eq
  simp only [BitVec.toNat_setWidth, BitVec.toNat_ofNat]
  omega

theorem encode_addr {ch : Nat} (hch : ch < 32) (w : Which) (h : Half) :
    encode (.addr ch w h) =
      chWord 0x0001#16 ch ||| (if w = .off then 0x0200#16 else 0#16) ||| (if h = .high then 0x0400#16 else 0#16) := by
  cases w <;> cases h <;> simp [encode, assemble, chWord, setWidth_channelCode hch, whichBit, halfBit]

theorem addr_delivers {s : State} {ch : Nat} (w : Which) (h : Half) (hch : ch ≤ 16) :
    Delivers (.addr ch w h) s { status := .ok, raddr := some (addrOf s.cfg ch w h) } := by
  simp only [Delivers, exec, execAddr, checkCh_of_le _ _ hch]
  rfl

/-- Settles O18: the word is the assembled one, and the channel check parts the two outcomes. -/
theorem addrOutputsTheAddress : Obligations.AddrOutputsTheAddress := by
  intro s ch w h
  exact ⟨fun hch => hasWord_of_encode (decide_eq_true hch) (encode_addr hch w h), addr_delivers w h, exec_bad_channel rfl⟩

end Sys2Proof.Machine

/-! ## 42_codec.md: the count check, the register pair's codec, ENC and DEC -/

namespace Sys2Proof.Machine

/-! ### The packer and the unpacker -/

theorem lowByte_toNat (c : Word) : (lowByte c).toNat = c.toNat % 256 := by
  simp only [lowByte, BitVec.toNat_ofNat, Nat.reducePow, Nat.mod_mod]

theorem highByte_toNat (c : Word) : (highByte c).toNat = c.toNat / 256 := by
  simp only [highByte, BitVec.toNat_ofNat]
  omega

/-- Settles O21: with the flag clear the pair is the low and the high byte of the count. -/
theorem encPacksCountAndFlag : Obligations.EncPacksCountAndFlag := by
  intro c hc
  rw [encPair_clear hc]
  refine ⟨encPair_full c, lowByte_toNat c, highByte_toNat c, ?_⟩
  rw [highByte_toNat]
  omega

/-- Settles O22: the unpacker is `countOf` and `flagOf`, which are arithmetic. -/
theorem decUnpacksAnyTwoBytes : Obligations.DecUnpacksAnyTwoBytes := by
  intro l h
  rw [decPair_eq]
  exact ⟨countOf_toNat l h, rfl⟩

/-! ### The laws of the codec -/

theorem decPair_encPair_clear {c : Word} (hc : c.toNat ≤ 4095) :
    decPair (encPair c false).1 (encPair c false).2 = (c, false) := by
  obtain ⟨hcount, hflag⟩ := countOf_bytes hc
  rw [encPair_clear hc, decPair_eq, hcount, hflag]

theorem decPair_encPair_full (c : Word) : decPair (encPair c true).1 (encPair c true).2 = (0#16, true) := by
  rw [encPair_full]
  decide

theorem encPair_high_lt {c : Word} (hc : c.toNat ≤ 4095) (f : Bool) : (encPair c f).2.toNat < 32 := by
  cases f with
  | true => rw [encPair_full]; decide
  | false => rw [encPair_clear hc, highByte_toNat]; omega

theorem encPair_clear_injective {c c' : Word} (hc : c.toNat ≤ 4095) (hc' : c'.toNat ≤ 4095)
    (h : encPair c false = encPair c' false) : c = c' := by
  have hdec := decPair_encPair_clear hc
  rw [h, decPair_encPair_clear hc'] at hdec
  exact (congrArg Prod.fst hdec).symm

theorem encPair_clear_ne_full {c : Word} (hc : c.toNat ≤ 4095) (c' : Word) : encPair c false ≠ encPair c' true := by
  intro h
  have hdec := decPair_encPair_clear hc
  rw [h, decPair_encPair_full] at hdec
  cases congrArg Prod.snd hdec

/-- With bits 7:4 of the high byte 0, the two bytes are those of the count in them. -/
theorem bytes_countOf {l h : Byte} (hh : h.toNat / 16 = 0) :
    lowByte (countOf l h) = l ∧ highByte (countOf l h) = h ∧ flagOf h = false := by
  have hl := l.isLt
  refine ⟨BitVec.eq_of_toNat_eq ?_, BitVec.eq_of_toNat_eq ?_, decide_eq_false (by omega)⟩
  · rw [lowByte_toNat, countOf_toNat]; omega
  · rw [highByte_toNat, countOf_toNat]; omega

theorem encPair_decPair {l h : Byte} (hh : h.toNat / 16 = 0) : encPair (decPair l h).1 (decPair l h).2 = (l, h) := by
  obtain ⟨hlow, hhigh, hflag⟩ := bytes_countOf (l := l) hh
  rw [decPair_eq, hflag, encPair_clear (countOf_le l h), hlow, hhigh]

/-- Settles O25: the unpacker inverts the packer, so valid pairs with different counts or flags have different bytes. -/
theorem codecLaws : Obligations.CodecLaws :=
  ⟨fun _ => decPair_encPair_clear, fun c _ => decPair_encPair_full c,
    fun _ f hc => Nat.div_eq_of_lt (encPair_high_lt hc f), fun _ _ => encPair_clear_injective,
    fun c hc => ⟨encPair_clear_ne_full hc 0#16, (encPair_full c).trans (encPair_full 0#16).symm⟩,
    fun _ _ => encPair_decPair⟩

/-! ### The count check -/

/-- INVALID_COUNT is not the status of a command whose checks pass. -/
theorem exec_good_counts {i : Instr} {s : State} (hpass : i.ChecksPass s.operands) :
    ∃ t r, exec i s = .next t ∧ t.res = some r ∧ r.status ≠ .invalidCount := by
  obtain ⟨t, ht⟩ := exec_next i s
  obtain ⟨r, hres, hok | hbus | ⟨hch, -⟩⟩ := exec_status_of_checksPass hpass ht
  · exact ⟨t, r, ht, hres, by simp [hok]⟩
  · exact ⟨t, r, ht, hres, by simp [hbus]⟩
  · exact ⟨t, r, ht, hres, by simp [hch]⟩

/-- Settles O20: past the channel check a bad count ends the command, and past both checks no count is refused. -/
theorem countsAreChecked : Obligations.CountsAreChecked :=
  fun _ _ hch => ⟨exec_bad_count hch, fun hcounts => exec_good_counts ⟨hch, hcounts⟩⟩

/-! ### ENC and DEC -/

theorem enc_hasWord (full : Bool) : HasWord (.enc full) (if full = true then 0x0802#16 else 0x0002#16) := by
  cases full with
  | false => exact hasWord_of_encode rfl (by decide)
  | true => exact hasWord_of_encode rfl (by decide)

theorem enc_delivers_encPair {s : State} (full : Bool) (ha : s.operands.a.toNat ≤ 4095) :
    Delivers (.enc full) s
      { status := .ok, rlo := some (encPair s.operands.a full).1, rhi := some (encPair s.operands.a full).2 } := by
  have hcounts : ∀ c ∈ [s.operands.a], c.toNat ≤ 4095 := by simpa using ha
  simp only [Delivers, exec, execEnc, checkCounts_of_le _ _ hcounts]
  rfl

theorem enc_delivers_invalidCount {s : State} (full : Bool) (ha : 4095 < s.operands.a.toNat) :
    Delivers (.enc full) s { status := .invalidCount } :=
  exec_bad_count nofun ⟨s.operands.a, List.mem_singleton_self _, ha⟩

/-- Settles O23: ENC checks its count and delivers the packed pair, which the flag or the count's two bytes give. -/
theorem encDeliversThePair : Obligations.EncDeliversThePair := by
  intro s full
  refine ⟨enc_hasWord full, fun ha => ?_, enc_delivers_invalidCount full⟩
  have hdelivers := enc_delivers_encPair full ha
  cases full with
  | true => exact hdelivers
  | false => rwa [encPair_clear ha] at hdelivers

theorem dec_delivers (s : State) : Delivers .dec s
    { status := .ok, rcount := some (countOf s.operands.l s.operands.h), rfull := some (flagOf s.operands.h) } := by
  simp only [Delivers, exec, execDec, decPair_eq]
  rfl

/-- Settles O24: DEC has one word, checks nothing, and delivers what the unpacker gives. -/
theorem decDeliversCountAndFlag : Obligations.DecDeliversCountAndFlag :=
  ⟨hasWord_of_encode rfl (by decide), dec_delivers⟩

end Sys2Proof.Machine

/-! ## 43_autoincrement_gate.md: EnsureGate, and which commands run it -/

namespace Sys2Proof.Machine

/-! ### The gate write by its answer -/

theorem submit_of_err {s : State} {e : BusErr} (p : Request) (hp : s.peek = .err e) :
    s.submit p = { s.advance with log := s.log ++ [{ req := p, resp := .err e }] } := by
  rw [State.submit, hp, respond_err]

theorem setGate_submit_of_ok {s : State} {d : Vector Byte 64} (hp : s.peek = .ok d) :
    (s.submit (gateRequest s.cfg)).setGate = { s.advance with ai := true, log := s.log ++ [gateEntry s.cfg] } := by
  rw [State.submit, hp]; rfl

/-! ### EnsureGate in terms of the state before it -/

/-- A passing gate was Set, or was Unset and its write was answered Ok. -/
theorem ensureGate_ok_iff {s g : State} : ensureGate s = (.ok (), g) ↔ GatePassed s g := by
  cases hai : s.ai with
  | true => simp [ensureGate_of_set hai, GatePassed, hai, eq_comm]
  | false =>
    cases hp : s.peek with
    | ok d => simp [ensureGate_of_ok hai hp, setGate_submit_of_ok hp, GatePassed, hai, hp, eq_comm]
    | err e => simp [ensureGate_of_err hai hp, GatePassed, hai, hp]

/-- A failing gate was Unset and its write was answered with the error word that it raises. -/
theorem ensureGate_error_iff {s g : State} {e : BusErr} : ensureGate s = (.error e, g) ↔ GateFailed s e g := by
  cases hai : s.ai with
  | true => simp [ensureGate_of_set hai, GateFailed, hai]
  | false =>
    cases hp : s.peek with
    | ok d => simp [ensureGate_of_ok hai hp, GateFailed, hp]
    | err e' =>
      simp only [ensureGate_of_err hai hp, submit_of_err _ hp, GateFailed, hai, hp, Prod.mk.injEq, Except.error.injEq,
        Answer.err.injEq, true_and]
      exact and_congr_right fun he => he ▸ eq_comm

/-! ### Which commands run the gate -/

/-- A bus command whose checks pass ends at a failed gate write: it raises the write's error and issues no payload. -/
theorem exec_of_gateFailed {i : Instr} {s g : State} {e : BusErr} (hb : i.isBus = true) (hpass : i.ChecksPass s.operands)
    (hfail : GateFailed s e g) :
    exec i s = .next { g with opd := none, res := some { status := .busError, berr := some e } } := by
  obtain ⟨p, -, hexec⟩ := exec_bus hb hpass
  obtain ⟨hai, hp, rfl⟩ := hfail
  rw [hexec, runRequest_gate_err p _ hai hp, submit_of_err _ hp]
  rfl

/-- A command that uses no bus keeps the gate and the log, and does the same whatever the gate is. -/
theorem exec_pure_gate {i : Instr} {s t : State} (hb : i.isBus = false) (h : exec i s = .next t) (b : Bool) :
    t.ai = s.ai ∧ t.log = s.log ∧ exec i { s with ai := b } = .next { t with ai := b } := by
  obtain ⟨r, -, -, -, -, hexec⟩ := exec_pure hb s.cfg s.operands
  cases (hexec s rfl rfl).symm.trans h
  exact ⟨rfl, rfl, hexec { s with ai := b } rfl rfl⟩

/-- Settles O26: by the gate's bit and the answer to its write; a command that runs the gate is the bus skeleton, and any
other delivers a result that the parameters and the operand record give. -/
theorem gateRule : Obligations.GateRule :=
  ⟨fun _ _ => ensureGate_ok_iff, fun _ _ _ => ensureGate_error_iff, fun _ _ _ _ => exec_of_gateFailed,
    fun _ _ _ b hb h => exec_pure_gate hb h b⟩

end Sys2Proof.Machine

/-! ## 44_channel_ops.md: the bus skeleton and the single-channel bus commands -/

namespace Sys2Proof.Machine

/-! ### The bus skeleton from the gate on -/

/-- Past a passing gate a bus command goes on exactly as from the state that the gate leaves. -/
theorem runRequest_of_gatePassed {s g : State} (hg : GatePassed s g) (p : Request) (r : Vector Byte 64 → Result) :
    runRequest p r s = runRequest p r g := by
  obtain ⟨-, rfl⟩ | ⟨hai, ⟨d, hd⟩, rfl⟩ := hg
  · rfl
  · rw [runRequest_unset_ok p r hai hd, setGate_submit_of_ok hd]

/-- The bus skeleton over a request runs the gate and that request. -/
theorem runsPayload_of_runRequest {i : Instr} {s : State} {p : Request} {r : Vector Byte 64 → Result}
    (hexec : exec i s = .next (runRequest p r s)) : RunsPayload i s p r := by
  refine ⟨?_, fun g d hg hd => ?_, fun g e hg he => ?_⟩
  · rintro g e ⟨hai, he, rfl⟩
    rw [hexec, runRequest_gate_err p r hai he, submit_of_err _ he]
    rfl
  · rw [hexec, runRequest_of_gatePassed hg, runRequest_set_ok p r hg.facts.1 hd, State.submit, hd]
    rfl
  · rw [hexec, runRequest_of_gatePassed hg, runRequest_set_err p r hg.facts.1 he, submit_of_err _ he]
    rfl

/-- A bus command whose checks pass runs the gate and its payload request (R95 steps 4 to 6). -/
theorem exec_runsPayload {i : Instr} {s : State} {p : Request} (hb : i.isBus = true) (hpass : i.ChecksPass s.operands)
    (hp : i.payload? s.cfg s.operands = some p) : RunsPayload i s p (busResult · i) := by
  obtain ⟨q, hq, hexec⟩ := exec_bus hb hpass
  obtain rfl : q = p := Option.some.inj (hq.symm.trans hp)
  exact runsPayload_of_runRequest hexec

theorem exists_payload? {i : Instr} (hb : i.isBus = true) (c : Config) (o : Operands) : ∃ p, i.payload? c o = some p := by
  cases i <;> simp only [Instr.isBus, Bool.false_eq_true] at hb <;> exact ⟨_, rfl⟩

/-! ### A bus command that ends with OK -/

/-- A read no longer than an answer's 64 bytes gets as many bytes as it asks for. -/
theorem fits_respond_read (a : Answer) (dev : DevAddr) (bytes : List Byte) {n : Nat} (hn : n ≤ 64) :
    Fits (.writeRead dev bytes n) (respond a (.writeRead dev bytes n)) := by
  cases a with
  | ok d => simpa [Fits] using hn
  | err e => trivial

theorem fits_respond_write (a : Answer) (dev : DevAddr) (bytes : List Byte) :
    Fits (.write dev bytes) (respond a (.write dev bytes)) := by
  cases a <;> trivial

/-- A payload request is a write or a read of 2 or 64 bytes, so every answer has a response of its shape (R34, R35). -/
theorem fits_respond_payload {i : Instr} {c : Config} {o : Operands} {p : Request} (h : i.payload? c o = some p)
    (a : Answer) : Fits p (respond a p) := by
  cases i <;> simp only [Instr.payload?, reduceCtorEq, Option.some.injEq] at h <;> subst h
  case geton | getoff | getfon | getfoff | getall => exact fits_respond_read a _ _ (by decide)
  all_goals exact fits_respond_write a _ _

theorem respond_ok_ne_err (d : Vector Byte 64) (p : Request) (e : BusErr) : respond (.ok d) p ≠ .err e := by
  cases p <;> exact nofun

/-- A bus command that ends with OK passed the gate, and its payload was answered with success. -/
theorem exec_bus_ok {i : Instr} {s t : State} {r : Result} (hb : i.isBus = true) (h : exec i s = .next t)
    (hres : t.res = some r) (hok : r.status = .ok) :
    ∃ p g d, i.payload? s.cfg s.operands = some p ∧ GatePassed s g ∧ g.peek = .ok d ∧
      t = (g.submit p).deliver (busResult d i) := by
  have busError (e : BusErr) (u : State) (ht : t = raiseBus e u) : False := by
    subst ht
    cases hres
    cases hok
  obtain ⟨r', -, hpure, -, rfl, -⟩ | ⟨-, -, p, hp, ⟨e, -, -, ht⟩ | ⟨g, hg, ⟨e, -, ht⟩ | ⟨d, hd, ht⟩⟩⟩ := exec_cases h
  · cases hres
    exact absurd ((hpure hok).1.symm.trans hb) (by decide)
  · exact (busError e _ ht).elim
  · exact (busError e _ ht).elim
  · exact ⟨p, g, d, hp, hg, hd, ht⟩

/-- A bus command that ends with OK leaves the gate Set and has logged what the gate adds and its payload. -/
theorem exec_bus_ok_log {i : Instr} {s t : State} {r : Result} (hb : i.isBus = true) (h : exec i s = .next t)
    (hres : t.res = some r) (hok : r.status = .ok) :
    t.ai = true ∧ ∃ p a, i.payload? s.cfg s.operands = some p ∧ (∀ e, a ≠ .err e) ∧ Fits p a ∧
      t.log = s.log ++ gateEntries s ++ [{ req := p, resp := a }] := by
  obtain ⟨p, g, d, hp, hg, hd, rfl⟩ := exec_bus_ok hb h hres hok
  obtain ⟨hai, -, -, -, -, hlog⟩ := hg.facts
  refine ⟨by simpa using hai, p, respond (.ok d) p, hp, respond_ok_ne_err d p, fits_respond_payload hp _, ?_⟩
  rw [State.deliver_log, State.submit_log, hlog, hd]

/-- A command that uses no bus changes the ports only. -/
theorem exec_pure_frame {i : Instr} {s t : State} (hb : i.isBus = false) (h : exec i s = .next t) :
    t = { s with opd := none, res := t.res } := by
  obtain ⟨r, -, -, -, -, hexec⟩ := exec_pure hb s.cfg s.operands
  cases (hexec s rfl rfl).symm.trans h
  rfl

/-- Settles O30: the decoder, the channel check and the count check each end a command where it stands; past them a bus
command is the gate and its one payload. -/
theorem busSkeleton : Obligations.BusSkeleton := by
  refine ⟨fun _ _ _ _ => step_illegal, fun i s => ⟨fun _ => exec_bad_channel, exec_bad_count, fun hb hpass => ?_,
    fun _ _ => exec_bus_ok_log, fun _ => exec_pure_frame⟩⟩
  obtain ⟨p, hp⟩ := exists_payload? hb s.cfg s.operands
  exact ⟨p, _, hp, fun d => (busResult_spec hb d).1, exec_runsPayload hb hpass hp⟩

/-! ### The single-channel bus commands -/

/-- R62: a channel command's word is its opcode and its channel code. -/
theorem hasWord_chWord {i : Instr} {ch : Nat} (op : BitVec 4) (hch : ch < 32) (hi : i.wellFormed = codeFits ch)
    (he : encode i = assembleCh op ch) : HasWord i (chWord (op.setWidth 16) ch) := by
  refine hasWord_of_encode (hi.trans (decide_eq_true hch)) (he.trans ?_)
  simp [assembleCh, assemble, chWord, setWidth_channelCode hch]

section
variable {i : Instr} {s : State} {ch : Nat} (hch : i.channel? = some ch) (hle : ch ≤ 16)
include hch hle

theorem channel?_le : ∀ c, i.channel? = some c → c ≤ 16 :=
  fun _ hc => Option.some.inj (hch.symm.trans hc) ▸ hle

theorem channel_delivers_invalidCount (hbad : ∃ c ∈ i.counts s.operands, 4095 < c.toNat) :
    Delivers i s { status := .invalidCount } :=
  exec_bad_count (channel?_le hch hle) hbad

theorem channel_runsPayload {p : Request} (hb : i.isBus = true) (hcounts : ∀ c ∈ i.counts s.operands, c.toNat ≤ 4095)
    (hp : i.payload? s.cfg s.operands = some p) : RunsPayload i s p (busResult · i) :=
  exec_runsPayload hb ⟨channel?_le hch hle, hcounts⟩ hp

end

/-- Settles O31: both commands are the skeleton over one checked count. -/
theorem setOnAndSetOffProgramTheCount : Obligations.SetOnAndSetOffProgramTheCount := by
  intro s ch
  refine ⟨fun hch => ⟨hasWord_chWord 0x4#4 hch rfl rfl, hasWord_chWord 0x5#4 hch rfl rfl⟩,
    fun hgt => ⟨exec_bad_channel rfl hgt, exec_bad_channel rfl hgt⟩, fun hle hbad => ?_, fun hle hgood => ?_⟩
  · have hcounts : ∃ c ∈ [s.operands.a], 4095 < c.toNat := ⟨_, List.mem_singleton_self _, hbad⟩
    exact ⟨channel_delivers_invalidCount rfl hle hcounts, channel_delivers_invalidCount rfl hle hcounts⟩
  · have hcounts : ∀ c ∈ [s.operands.a], c.toNat ≤ 4095 := List.forall_mem_singleton.mpr hgood
    exact ⟨channel_runsPayload rfl hle rfl hcounts rfl, channel_runsPayload rfl hle rfl hcounts rfl⟩

/-- Settles O32: the count is checked, and the payload does not hold it. -/
theorem setFullOnWritesTheFlag : Obligations.SetFullOnWritesTheFlag := fun _ _ =>
  ⟨fun hch => hasWord_chWord 0x6#4 hch rfl rfl, exec_bad_channel rfl,
    fun hle hbad => channel_delivers_invalidCount rfl hle ⟨_, List.mem_singleton_self _, hbad⟩,
    fun hle hgood => channel_runsPayload rfl hle rfl (List.forall_mem_singleton.mpr hgood) rfl⟩

/-- Settles O33: past the channel check there is no count to check. -/
theorem setFullOffWritesTheFlag : Obligations.SetFullOffWritesTheFlag := fun _ _ =>
  ⟨fun hch => hasWord_chWord 0x7#4 hch rfl rfl, exec_bad_channel rfl,
    fun hle => channel_runsPayload rfl hle rfl (List.forall_mem_nil _) rfl⟩

/-- Settles O34: both commands are the skeleton over a read of their pair. -/
theorem getOnAndGetOffReadThePair : Obligations.GetOnAndGetOffReadThePair := fun _ _ =>
  ⟨fun hch => ⟨hasWord_chWord 0x8#4 hch rfl rfl, hasWord_chWord 0x9#4 hch rfl rfl⟩,
    fun hgt => ⟨exec_bad_channel rfl hgt, exec_bad_channel rfl hgt⟩,
    fun hle => ⟨channel_runsPayload rfl hle rfl (List.forall_mem_nil _) rfl,
      channel_runsPayload rfl hle rfl (List.forall_mem_nil _) rfl⟩⟩

/-- Settles O35: both commands issue the read of GETON or GETOFF and deliver its flag. -/
theorem getFullOnAndGetFullOffReadTheFlag : Obligations.GetFullOnAndGetFullOffReadTheFlag := fun _ _ =>
  ⟨fun hch => ⟨hasWord_chWord 0xA#4 hch rfl rfl, hasWord_chWord 0xB#4 hch rfl rfl⟩,
    fun hgt => ⟨exec_bad_channel rfl hgt, exec_bad_channel rfl hgt⟩,
    fun hle => ⟨channel_runsPayload rfl hle rfl (List.forall_mem_nil _) rfl,
      channel_runsPayload rfl hle rfl (List.forall_mem_nil _) rfl⟩⟩

/-- Settles O36: either count alone fails the check, and with both in range the payload is the channel's whole block. -/
theorem setOnOffProgramsBothCounts : Obligations.SetOnOffProgramsBothCounts := by
  intro s ch
  refine ⟨fun hch => hasWord_chWord 0xC#4 hch rfl rfl, exec_bad_channel rfl,
    fun hle hbad => channel_delivers_invalidCount rfl hle ?_, fun hle ha hb => channel_runsPayload rfl hle rfl ?_ rfl⟩
  · change ∃ c ∈ [s.operands.a, s.operands.b], 4095 < c.toNat
    simpa using hbad
  · change ∀ c ∈ [s.operands.a, s.operands.b], c.toNat ≤ 4095
    simpa using ⟨ha, hb⟩

/-! ### The broadcast code -/

/-- What R105 turns on: of the family `f` of commands, one for each channel code, only the address of pair `w` in the payload
depends on the code. The payload is a write of `n` bytes to that address or, with `n` 0, a read of two bytes from it. The fields
with a default hold by computation for a constructor of `Instr`. -/
structure OnlyAddressDepends (c : Config) (o : Operands) (f : Nat → Instr) (w : Which) (n : Nat) : Prop where
  isBus : ∀ ch, (f ch).isBus = true := by intros; rfl
  channel : ∀ ch, (f ch).channel? = some ch := by intros; rfl
  counts : ∀ ch k, (f ch).counts o = (f k).counts o := by intros; rfl
  result : ∀ ch k d, busResult d (f ch) = busResult d (f k) := by intros; rfl
  payload :
    (n ≠ 0 ∧ ∃ rest : List Byte,
      (∀ ch, (f ch).payload? c o = some (.write c.devAddr (addrOf c ch w .low :: rest))) ∧ rest.length = n) ∨
    (n = 0 ∧ ∀ ch, (f ch).payload? c o = some (.writeRead c.devAddr [addrOf c ch w .low] 2))

/-- The nine single-channel bus commands, with the offset of their pair and the number of payload bytes they write. -/
theorem onlyAddressDepends_of_mem (c : Config) (r : Operands) {f : Nat → Instr} {o n : Nat}
    (h : (f, o, n) ∈ [(Instr.seton, 0, 2), (Instr.setoff, 2, 2), (Instr.setfon, 0, 2), (Instr.setfoff, 2, 2),
      (Instr.geton, 0, 0), (Instr.getoff, 2, 0), (Instr.getfon, 0, 0), (Instr.getfoff, 2, 0), (Instr.setonoff, 0, 4)]) :
    ∃ w, o = 2 * whichOffset w ∧ OnlyAddressDepends c r f w n := by
  simp only [List.mem_cons, Prod.mk.injEq, List.not_mem_nil, or_false] at h
  obtain ⟨rfl, rfl, rfl⟩ | ⟨rfl, rfl, rfl⟩ | ⟨rfl, rfl, rfl⟩ | ⟨rfl, rfl, rfl⟩ | ⟨rfl, rfl, rfl⟩ | ⟨rfl, rfl, rfl⟩ |
    ⟨rfl, rfl, rfl⟩ | ⟨rfl, rfl, rfl⟩ | ⟨rfl, rfl, rfl⟩ := h
  · exact ⟨.on, rfl, { payload := .inl ⟨by decide, _, fun _ => rfl, rfl⟩ }⟩
  · exact ⟨.off, rfl, { payload := .inl ⟨by decide, _, fun _ => rfl, rfl⟩ }⟩
  · exact ⟨.on, rfl, { payload := .inl ⟨by decide, _, fun _ => rfl, rfl⟩ }⟩
  · exact ⟨.off, rfl, { payload := .inl ⟨by decide, _, fun _ => rfl, rfl⟩ }⟩
  · exact ⟨.on, rfl, { payload := .inr ⟨rfl, fun _ => rfl⟩ }⟩
  · exact ⟨.off, rfl, { payload := .inr ⟨rfl, fun _ => rfl⟩ }⟩
  · exact ⟨.on, rfl, { payload := .inr ⟨rfl, fun _ => rfl⟩ }⟩
  · exact ⟨.off, rfl, { payload := .inr ⟨rfl, fun _ => rfl⟩ }⟩
  · exact ⟨.on, rfl, { payload := .inl ⟨by decide, _, fun _ => rfl, rfl⟩ }⟩

theorem addrOf_all_low {c : Config} (hc : c.WF) (w : Which) :
    (addrOf c 16 w .low).toNat = c.allBase.toNat + 2 * whichOffset w := by
  rw [addrOf_toNat hc (Nat.le_refl 16), blockBase_all]; rfl

theorem addrOf_channel_low {c : Config} (hc : c.WF) {k : Nat} (hk : k ≤ 15) (w : Which) :
    (addrOf c k w .low).toNat = c.chBase.toNat + 4 * k + 2 * whichOffset w := by
  rw [addrOf_toNat hc (by omega), blockBase_of_le c hk]; rfl

/-- Settles O37: the two codes differ in the payload's address alone, which is the low byte of the same pair. -/
theorem broadcastOnlyMovesTheAddress : Obligations.BroadcastOnlyMovesTheAddress := by
  intro f o n s k hmem hc hk
  obtain ⟨w, rfl, hf⟩ := onlyAddressDepends_of_mem s.cfg s.operands hmem
  have hk16 : k ≤ 16 := by omega
  refine ⟨fun hbad => ?_, fun hgood => ?_⟩
  · exact ⟨channel_delivers_invalidCount (hf.channel 16) (Nat.le_refl 16) (hf.counts k 16 ▸ hbad),
      channel_delivers_invalidCount (hf.channel k) hk16 hbad⟩
  · have run {ch : Nat} (hle : ch ≤ 16) {p : Request} (hp : (f ch).payload? s.cfg s.operands = some p) :
        RunsPayload (f ch) s p (busResult · (f k)) := by
      rw [← funext (hf.result ch k)]
      exact channel_runsPayload (hf.channel ch) hle (hf.isBus ch) (hf.counts k ch ▸ hgood) hp
    obtain ⟨hn, rest, hp, hlen⟩ | ⟨hn, hp⟩ := hf.payload
    · exact ⟨_, _, _, _, _, addrOf_all_low hc w, addrOf_channel_low hc hk w, .inl ⟨hn, rest, hlen, rfl, rfl⟩,
        run (Nat.le_refl 16) (hp 16), run hk16 (hp k)⟩
    · exact ⟨_, _, _, _, _, addrOf_all_low hc w, addrOf_channel_low hc hk w, .inr ⟨hn, rfl, rfl⟩,
        run (Nat.le_refl 16) (hp 16), run hk16 (hp k)⟩

end Sys2Proof.Machine

/-! ## 45_bulk_ops.md: the bulk commands -/

namespace Sys2Proof.Machine

/-- SETALL checks the 16 on counts and the 16 off counts (R110). -/
theorem mem_counts_setall {o : Operands} {c : Word} :
    c ∈ Instr.counts o .setall ↔ ∃ k : Fin 16, o.von[k] = c ∨ o.voff[k] = c := by
  have mem_toList (v : Vector Word 16) : c ∈ v.toList ↔ ∃ k : Fin 16, v[k] = c := by
    simp [Vector.mem_iff_getElem, Fin.exists_iff]
  rw [Instr.counts, List.mem_append, mem_toList, mem_toList, exists_or]

/-- Settles O38: one bad count among the 32 ends the command; with none, it is the skeleton over the 65-byte write. -/
theorem setAllProgramsEveryChannel : Obligations.SetAllProgramsEveryChannel := by
  refine ⟨hasWord_of_encode rfl (by decide), fun s => ⟨?_, fun hgood => exec_runsPayload rfl ⟨nofun, ?_⟩ rfl⟩⟩
  · rintro ⟨k, hon | hoff⟩
    · exact exec_bad_count nofun ⟨_, mem_counts_setall.mpr ⟨k, .inl rfl⟩, hon⟩
    · exact exec_bad_count nofun ⟨_, mem_counts_setall.mpr ⟨k, .inr rfl⟩, hoff⟩
  · intro c hc
    obtain ⟨k, rfl | rfl⟩ := mem_counts_setall.mp hc
    · exact (hgood k).1
    · exact (hgood k).2

/-- Settles O39: GETALL has nothing to check, and is the skeleton over the 64-byte read. -/
theorem getAllReadsEveryChannel : Obligations.GetAllReadsEveryChannel :=
  ⟨hasWord_of_encode rfl (by decide), fun _ => exec_runsPayload rfl ⟨nofun, List.forall_mem_nil _⟩ rfl⟩

end Sys2Proof.Machine

/-! ## 60_exceptions.md: the statuses, their causes and their order -/

namespace Sys2Proof

/-- The integer or the channel code of a command is outside its range: the cause of INVALID_CHANNEL (R70, R71, R120). -/
def Instr.BadChannel (o : Machine.Operands) (i : Instr) : Prop :=
  (∃ ch, i.channel? = some ch ∧ 16 < ch) ∨
    (i = .chint false ∧ 15 < o.n.toNat) ∨ (i = .chint true ∧ (o.n.toInt < 0 ∨ 15 < o.n.toInt))

/-- A count operand of a command is above 4095: the cause of INVALID_COUNT (R80, R120). -/
def Instr.BadCount (o : Machine.Operands) (i : Instr) : Prop := ∃ c ∈ i.counts o, 4095 < c.toNat

end Sys2Proof

namespace Sys2Proof.Machine

/-! ### The cause of each error a command checks for -/

theorem badChannel_chint_iff {o : Operands} {sgn : Bool} :
    (Instr.chint sgn).BadChannel o ↔ ¬ (0 ≤ intOperand sgn o.n ∧ intOperand sgn o.n ≤ 15) := by
  cases sgn with
  | false => simp [Instr.BadChannel, Instr.channel?, intOperand]
  | true => simp [Instr.BadChannel, Instr.channel?, intOperand]; omega

theorem channel_le_of_not_badChannel {o : Operands} {i : Instr} (h : ¬ i.BadChannel o) :
    ∀ ch, i.channel? = some ch → ch ≤ 16 :=
  fun ch hsome => Nat.le_of_not_lt fun hgt => h (.inl ⟨ch, hsome, hgt⟩)

/-- The checks of a command pass when neither cause is there. -/
theorem checksPass_of_not_bad {o : Operands} {i : Instr} (hch : ¬ i.BadChannel o) (hct : ¬ i.BadCount o) :
    i.ChecksPass o :=
  ⟨channel_le_of_not_badChannel hch, fun c hc => Nat.le_of_not_lt fun hgt => hct ⟨c, hc, hgt⟩⟩

theorem exec_of_badChannel {i : Instr} {s : State} (h : i.BadChannel s.operands) :
    exec i s = .next (raise .invalidChannel s) := by
  have hchint {sgn : Bool} (hi : i = .chint sgn) : exec i s = .next (raise .invalidChannel s) := by
    subst hi
    exact chint_delivers_invalidChannel (badChannel_chint_iff.mp h)
  obtain ⟨ch, hsome, hgt⟩ | ⟨hi, -⟩ | ⟨hi, -⟩ := h
  · exact exec_bad_channel hsome hgt
  · exact hchint hi
  · exact hchint hi

theorem exec_of_badCount {i : Instr} {s : State} (hch : ¬ i.BadChannel s.operands) (hct : i.BadCount s.operands) :
    exec i s = .next (raise .invalidCount s) :=
  exec_bad_count (channel_le_of_not_badChannel hch) hct

/-- A command that uses no bus and has neither cause of an error ends with OK. -/
theorem exec_pure_ok {i : Instr} {s : State} (hb : i.isBus = false) (hch : ¬ i.BadChannel s.operands)
    (hct : ¬ i.BadCount s.operands) : ∃ r : Result, r.status = .ok ∧ exec i s = .next (s.deliver r) := by
  obtain ⟨r, -, -, -, hstatus, hexec⟩ := exec_pure hb s.cfg s.operands
  obtain hok | ⟨-, sgn, rfl⟩ := hstatus (checksPass_of_not_bad hch hct)
  · exact ⟨r, hok, hexec s rfl rfl⟩
  · have hrange := not_not.mp (mt badChannel_chint_iff.mpr hch)
    exact ⟨_, rfl, congrArg Host.Outcome.next (if_pos hrange)⟩

/-- R95 and R123 over every command: a bad channel ends it, else a bad count, else it uses no bus and ends with OK, or it is
the bus skeleton. -/
theorem exec_by_first_error (i : Instr) (s : State) :
    (i.BadChannel s.operands ∧ exec i s = .next (raise .invalidChannel s)) ∨
    (¬ i.BadChannel s.operands ∧ i.BadCount s.operands ∧ exec i s = .next (raise .invalidCount s)) ∨
    (i.isBus = false ∧ ¬ i.BadChannel s.operands ∧ ¬ i.BadCount s.operands ∧
      ∃ r : Result, r.status = .ok ∧ exec i s = .next (s.deliver r)) ∨
    (i.isBus = true ∧ ¬ i.BadChannel s.operands ∧ ¬ i.BadCount s.operands ∧
      ∃ p, i.payload? s.cfg s.operands = some p ∧ exec i s = .next (runRequest p (busResult · i) s)) := by
  by_cases hch : i.BadChannel s.operands
  · exact .inl ⟨hch, exec_of_badChannel hch⟩
  by_cases hct : i.BadCount s.operands
  · exact .inr (.inl ⟨hch, hct, exec_of_badCount hch hct⟩)
  cases hb : i.isBus with
  | false => exact .inr (.inr (.inl ⟨rfl, hch, hct, exec_pure_ok hb hch hct⟩))
  | true => exact .inr (.inr (.inr ⟨rfl, hch, hct, exec_bus hb (checksPass_of_not_bad hch hct)⟩))

/-! ### What raised a delivered status -/

/-- A command that ends with BUS_ERROR is a bus command whose last transaction got the delivered error word: the mode-1 write
with the gate still Unset, or the payload with the gate Set (R122). -/
theorem exec_busError {i : Instr} {s t : State} {r : Result} (h : exec i s = .next t) (hres : t.res = some r)
    (hbus : r.status = .busError) : i.isBus = true ∧ ∃ e, r.berr = some e ∧
      ((s.ai = false ∧ t.ai = false ∧ t.log = s.log ++ [{ req := gateRequest s.cfg, resp := .err e }]) ∨
       ∃ p, i.payload? s.cfg s.operands = some p ∧ t.ai = true ∧
        t.log = s.log ++ gateEntries s ++ [{ req := p, resp := .err e }]) := by
  obtain ⟨r', -, -, hstatus, rfl, -⟩ | ⟨hb, -, p, hp, ⟨e, hai, hpeek, rfl⟩ | ⟨g, hg, ⟨e, hpeek, rfl⟩ | ⟨d, -, rfl⟩⟩⟩ :=
    exec_cases h
  all_goals cases hres
  · simp [hbus] at hstatus
  · exact ⟨hb, e, rfl, .inl ⟨hai, by simpa using hai, by simp [hpeek]⟩⟩
  · obtain ⟨hset, -, -, -, -, hlog⟩ := hg.facts
    exact ⟨hb, e, rfl, .inr ⟨p, hp, by simpa using hset, by simp [hlog, hpeek]⟩⟩
  · exact absurd ((busResult_spec hb d).1.symm.trans hbus) (by decide)

/-- The raiser of each status a command's meaning can end with: a bad channel, a bad count or a failed transaction. -/
theorem exec_status_raiser {i : Instr} {s t : State} {r : Result} (h : exec i s = .next t) (hres : t.res = some r) :
    (r.status = .invalidChannel → i.BadChannel s.operands) ∧ (r.status = .invalidCount → i.BadCount s.operands) ∧
      r.status ≠ .illegalCommand := by
  obtain ⟨hch, hexec⟩ | ⟨-, hct, hexec⟩ | ⟨-, -, -, r', hok, hexec⟩ | ⟨hb, hch, hct, -⟩ := exec_by_first_error i s
  · cases hexec.symm.trans h
    cases hres
    exact ⟨fun _ => hch, nofun, nofun⟩
  · cases hexec.symm.trans h
    cases hres
    exact ⟨nofun, fun _ => hct, nofun⟩
  · cases hexec.symm.trans h
    cases hres
    simp [hok]
  · obtain ⟨r', hres', hstatus⟩ := exec_status_of_checksPass (checksPass_of_not_bad hch hct) h
    obtain rfl : r' = r := Option.some.inj (hres'.symm.trans hres)
    obtain hok | hbus | ⟨-, sgn, rfl⟩ := hstatus
    · simp [hok]
    · simp [hbus]
    · cases hb

/-- A legal result holds an error word with BUS_ERROR only. -/
theorem Result.Legal.berr_eq_none {r : Result} (h : r.Legal) (hne : r.status ≠ .busError) : r.berr = none :=
  Option.not_isSome_iff_eq_none.mp (mt h.berr.mp hne)

/-! ### A step with a command presented -/

/-- A step that is presented a legal word runs its command on the record presented with it. -/
theorem step_command {s : State} {c : Command} {rest : List HostInput} {i : Instr} (hc : s.cfg.WF)
    (hi : s.inputs = .command c :: rest) (hd : decode c.cw = .ok i) :
    step s = exec i { s with inputs := rest, opd := some c.opd, res := none } := by
  rw [step, accept_command hc hi hd]

/-- A step delivers ILLEGAL_COMMAND exactly when the word presented decodes to no command. -/
theorem step_illegalCommand_iff {s : State} {c : Command} {rest : List HostInput} (hc : s.cfg.WF)
    (hi : s.inputs = .command c :: rest) :
    ∃ t r, step s = .next t ∧ t.res = some r ∧ (r.status = .illegalCommand ↔ ∃ e, decode c.cw = .error e) := by
  cases hd : decode c.cw with
  | error e => exact ⟨_, _, step_illegal hc hi hd, rfl, by simp⟩
  | ok i =>
    obtain ⟨t, ht⟩ := exec_next i { s with inputs := rest, opd := some c.opd, res := none }
    obtain ⟨r, hres, -⟩ := exec_result ht
    obtain ⟨-, -, hne⟩ := exec_status_raiser ht hres
    exact ⟨t, r, (step_command hc hi hd).trans ht, hres, by simp [hne]⟩

/-- Settles O46: each status by the one way a command or a step can end that delivers it. -/
theorem statusCodesAndTheirRaisers : Obligations.StatusCodesAndTheirRaisers := by
  refine ⟨⟨rfl, rfl, rfl, rfl, rfl⟩, fun i s t r h hres => ?_, fun s c rest hc hi => ?_⟩
  · obtain ⟨hchannel, hcount, -⟩ := exec_status_raiser h hres
    obtain ⟨r', hres', hlegal, -⟩ := exec_result h
    obtain rfl : r' = r := Option.some.inj (hres'.symm.trans hres)
    refine ⟨fun hs => or_assoc.mp (hchannel hs).symm, hcount, fun hs => ?_, hlegal.berr_eq_none⟩
    obtain ⟨hb, e, he, ⟨-, -, hlog⟩ | ⟨p, -, -, hlog⟩⟩ := exec_busError h hres hs
    · exact ⟨hb, e, _, _, he, hlog, List.mem_singleton_self _, rfl⟩
    · exact ⟨hb, e, _, _, he, hlog.trans (List.append_assoc ..), List.mem_append_right _ (List.mem_singleton_self _), rfl⟩
  · simp only [← decode_error_iff]
    exact step_illegalCommand_iff hc hi

/-! ### The order of the errors -/

/-- What the bus skeleton delivers does not depend on the ports and the host's list. -/
theorem runRequest_res_congr (p : Request) (r : Vector Byte 64 → Result) (s : State) (opd : Option Operands)
    (res : Option Result) (inputs : List HostInput) :
    (runRequest p r { s with opd := opd, res := res, inputs := inputs }).res = (runRequest p r s).res := by
  obtain ⟨new, -, h⟩ := runRequest_update p r s
  rw [h opd res s.log inputs]

/-- The bus skeleton delivers the error of a failed gate write; past a passing gate it delivers the payload's error or the
command's result. -/
theorem runRequest_delivers {p : Request} {result : Vector Byte 64 → Result} {s : State} {r : Result}
    (hres : (runRequest p result s).res = some r) :
    (∀ e, s.ai = false → s.peek = .err e → r = { status := .busError, berr := some e }) ∧
    ∀ g, GatePassed s g →
      (∀ e, g.peek = .err e → r = { status := .busError, berr := some e }) ∧ ∀ d, g.peek = .ok d → r = result d := by
  refine ⟨fun e hai he => ?_, fun g hg => ?_⟩
  · rw [runRequest_gate_err p result hai he, raiseBus_res] at hres
    exact (Option.some.inj hres).symm
  · obtain ⟨hset, -⟩ := hg.facts
    rw [runRequest_of_gatePassed hg] at hres
    refine ⟨fun e he => ?_, fun d hd => ?_⟩
    · rw [runRequest_set_err p result hset he, raiseBus_res] at hres
      exact (Option.some.inj hres).symm
    · rw [runRequest_set_ok p result hset hd, State.deliver_res] at hres
      exact (Option.some.inj hres).symm

/-- Settles O48: an illegal word ends at the decoder; past it the first cause that is there ends the command, and with none
a bus command delivers what its skeleton does. -/
theorem firstErrorInOrderIsDelivered : Obligations.FirstErrorInOrderIsDelivered := by
  intro s c rest hc hi
  cases hd : decode c.cw with
  | error e => exact ⟨_, _, step_illegal hc hi hd, rfl, rfl⟩
  | ok i =>
    have hstep := step_command hc hi hd
    obtain ⟨hch, hexec⟩ | ⟨hch, hct, hexec⟩ | ⟨hb, hch, hct, r, hok, hexec⟩ | ⟨hb, hch, hct, p, -, hexec⟩ :=
      exec_by_first_error i { s with inputs := rest, opd := some c.opd, res := none }
    · exact ⟨_, _, hstep.trans hexec, rfl, fun _ => rfl, absurd hch, absurd hch, absurd hch⟩
    · exact ⟨_, _, hstep.trans hexec, rfl, (absurd · hch), fun _ _ => rfl, fun _ => absurd hct, fun _ => absurd hct⟩
    · exact ⟨_, r, hstep.trans hexec, rfl, (absurd · hch), fun _ => (absurd · hct), fun _ _ _ => hok,
        fun _ _ hbus => absurd (hb.symm.trans hbus) (by decide)⟩
    · obtain ⟨r, hres, -⟩ := exec_result hexec
      obtain ⟨hgate, hpayload⟩ := runRequest_delivers ((runRequest_res_congr ..).symm.trans hres)
      refine ⟨_, r, hstep.trans hexec, hres, (absurd · hch), fun _ => (absurd · hct),
        fun _ _ hpure => absurd (hb.symm.trans hpure) (by decide), fun _ _ _ => ⟨hgate, fun g hg => ?_⟩⟩
      obtain ⟨herr, hdata⟩ := hpayload g hg
      exact ⟨herr, fun d hd => hdata d hd ▸ (busResult_spec hb d).1⟩

end Sys2Proof.Machine

/-! ## 30_encoding.md: encoding what a word decodes to, and the assembler lines -/

namespace Sys2Proof

/-- A word with `rsv` 0 is the sum of its fields at their places (R51). -/
theorem toNat_eq_fields {w : Word} (h : rsvField w = 0#3) :
    w.toNat = (opField w).toNat + 16 * (chField w).toNat + 512 * (w.getLsbD 9).toNat + 1024 * (w.getLsbD 10).toNat +
      2048 * (w.getLsbD 11).toNat + 4096 * (w.getLsbD 12).toNat := by
  have bit (k : Nat) : (w.getLsbD k).toNat = w.toNat / 2 ^ k % 2 := Nat.toNat_testBit w.toNat k
  rw [rsvField_eq_zero] at h
  rw [opField_toNat, chField_toNat, bit 9, bit 10, bit 11, bit 12]
  omega

section
variable (op : BitVec 4) (ch : BitVec 5) (which half full sgn : Bool)

@[simp] theorem opField_assemble : opField (assemble op ch which half full sgn) = op := by
  ext k hk
  interval_cases k <;> simp [opField, assemble]

@[simp] theorem rsvField_assemble : rsvField (assemble op ch which half full sgn) = 0#3 := by
  ext k hk
  interval_cases k <;> simp [rsvField, assemble]

/-- The assembled word as a number (R62). -/
theorem assemble_toNat : (assemble op ch which half full sgn).toNat =
    op.toNat + 16 * ch.toNat + 512 * which.toNat + 1024 * half.toNat + 2048 * full.toNat + 4096 * sgn.toNat := by
  have hwhich : (assemble op ch which half full sgn).getLsbD 9 = which := by simp [assemble]
  have hhalf : (assemble op ch which half full sgn).getLsbD 10 = half := by simp [assemble]
  have hfull : (assemble op ch which half full sgn).getLsbD 11 = full := fullField_assemble ..
  have hsgn : (assemble op ch which half full sgn).getLsbD 12 = sgn := sgnField_assemble ..
  rw [toNat_eq_fields (rsvField_assemble ..), opField_assemble, chField_assemble, hwhich, hhalf, hfull, hsgn]

end

/-- A word with `rsv` 0 is assembled from its own fields. -/
theorem assemble_fields {w : Word} (h : rsvField w = 0#3) :
    assemble (opField w) (chField w) (w.getLsbD 9) (w.getLsbD 10) (w.getLsbD 11) (w.getLsbD 12) = w :=
  BitVec.eq_of_toNat_eq ((assemble_toNat ..).trans (toNat_eq_fields h).symm)

theorem whichBit_whichField (w : Word) : whichBit (whichField w) = w.getLsbD 9 := by
  cases h : w.getLsbD 9 <;> simp only [whichField, h] <;> rfl

theorem halfBit_halfField (w : Word) : halfBit (halfField w) = w.getLsbD 10 := by
  cases h : w.getLsbD 10 <;> simp only [halfField, h] <;> rfl

section
variable {w m : Word} (h : w &&& m = w)
include h

theorem getLsbD_of_masked {k : Nat} (hm : m.getLsbD k = false) : w.getLsbD k = false := by
  rw [← h, BitVec.getLsbD_and, hm, Bool.and_false]

theorem chField_of_masked (hm : chField m = 0#5) : chField w = 0#5 := by
  have hand : chField (w &&& m) = chField w &&& chField m := BitVec.extractLsb_and ..
  rw [← h, hand, hm, BitVec.and_zero]

end

/-- Encoding the command that a word's opcode and fields give, gives the word back when the fields that the command does not
read are 0. -/
theorem encode_withFields {w : Word} {i : Instr} (hrsv : rsvField w = 0#3) (hop : (opField w).toNat = i.opcode)
    (hmask : w &&& i.readMask = w) : encode (i.withFields w) = w := by
  have hw := assemble_fields hrsv
  have hopcode : opField w = BitVec.ofNat 4 i.opcode := by rw [← hop, BitVec.ofNat_toNat, BitVec.setWidth_eq]
  have hcode : BitVec.ofNat 5 (chField w).toNat = chField w := by rw [BitVec.ofNat_toNat, BitVec.setWidth_eq]
  have hch := chField_of_masked hmask
  have hbit (k : Nat) : i.readMask.getLsbD k = false → w.getLsbD k = false := getLsbD_of_masked hmask
  rw [hopcode] at hw
  cases i <;> simp only [Instr.readMask] at hch hbit
  case chint => rwa [hch (by decide), hbit 9 (by decide), hbit 10 (by decide), hbit 11 (by decide)] at hw
  case enc => rwa [hch (by decide), hbit 9 (by decide), hbit 10 (by decide), hbit 12 (by decide)] at hw
  case dec | setall | getall =>
    rwa [hch (by decide), hbit 9 (by decide), hbit 10 (by decide), hbit 11 (by decide), hbit 12 (by decide)] at hw
  case addr =>
    rw [hbit 11 (by decide), hbit 12 (by decide)] at hw
    rwa [Instr.withFields, encode, hcode, whichBit_whichField, halfBit_halfField]
  all_goals
    rw [hbit 9 (by decide), hbit 10 (by decide), hbit 11 (by decide), hbit 12 (by decide)] at hw
    rwa [Instr.withFields, encode, assembleCh, hcode]

theorem Instr.withFields_wellFormed (w : Word) (i : Instr) : (i.withFields w).wellFormed = true := by
  have hch : codeFits (chField w).toNat = true := decide_eq_true (chField w).isLt
  cases i
  case chint | enc | dec | setall | getall => rfl
  all_goals exact hch

/-- Settles O1: the opcode of the word selects the command, and each field of the word is the operand put there. -/
theorem decodeOfEncodeIsIdentity : Obligations.DecodeOfEncodeIsIdentity := fun _ => decode_encode

/-- Settles O2: the word under the read mask decodes to the same command, and it is assembled from the fields it reads. -/
theorem encodeOfDecodeClearsUnreadFields : Obligations.EncodeOfDecodeClearsUnreadFields := by
  intro w i hd
  have hmasked : w &&& i.readMask &&& i.readMask = w &&& i.readMask := by rw [BitVec.and_assoc, BitVec.and_self]
  obtain ⟨hrsv, hop, hfields⟩ := decode_ok_iff.mp (decode_of_readMask hd hmasked)
  have hencode := encode_withFields hrsv hop hmasked
  have hwf := Instr.withFields_wellFormed (w &&& i.readMask) i
  rw [hfields] at hencode hwf
  exact ⟨hwf, hencode⟩

/-- Settles O5: each word is one of a fixed list, and the decoder computes. -/
theorem knownWordsDecode : Obligations.KnownWordsDecode := by
  unfold Obligations.KnownWordsDecode
  decide

end Sys2Proof

namespace Sys2Proof.Machine

/-! ### The assembler lines -/

theorem channelCode_lt (n : ChannelName) : channelCode n < 32 := by
  cases n with
  | c k => exact Nat.lt_of_lt_of_le k.isLt (by decide)
  | all => exact (by decide : 16 < 32)
  | raw n => exact n.isLt

theorem assembleCh_toNat (op : BitVec 4) {ch : Nat} (hch : ch < 32) : (assembleCh op ch).toNat = op.toNat + 16 * ch := by
  rw [assembleCh, assemble_toNat, BitVec.toNat_ofNat, Nat.mod_eq_of_lt hch]
  rfl

/-- A step that is presented a line of a well-formed command runs that command on the line's record. -/
theorem lineRuns_of_encode {l : Line} {w : Nat} (hwf : (lineInstr l).wellFormed = true)
    (hw : (encode (lineInstr l)).toNat = w) : LineRuns l w (lineInstr l) (lineOperands l) := by
  have hd : decode (lineCommand l).cw = .ok (lineInstr l) := decode_encode hwf
  exact ⟨hw, rfl, fun s rest hc hi => step_command (c := lineCommand l) hc hi hd⟩

/-- The line of a channel command: its word is the opcode and the channel code. -/
theorem lineRuns_channel {l : Line} (op : BitVec 4) (n : ChannelName) (hwf : (lineInstr l).wellFormed = codeFits (channelCode n))
    (he : encode (lineInstr l) = assembleCh op (channelCode n)) :
    LineRuns l (op.toNat + 16 * channelCode n) (lineInstr l) (lineOperands l) :=
  lineRuns_of_encode (hwf.trans (decide_eq_true (channelCode_lt n))) (he ▸ assembleCh_toNat op (channelCode_lt n))

theorem encode_addr_toNat {ch : Nat} (hch : ch < 32) (w : Which) (h : Half) :
    (encode (.addr ch w h)).toNat = 0x1 + 16 * ch + (if w = .off then 512 else 0) + (if h = .high then 1024 else 0) := by
  rw [encode, assemble_toNat, BitVec.toNat_ofNat ch, Nat.mod_eq_of_lt hch]
  cases w <;> cases h <;> rfl

/-- Settles O6: every line is one well-formed command, whose word is the sum of its opcode and its fields at their places. -/
theorem assembledLines : Obligations.AssembledLines := by
  refine ⟨fun _ => rfl, rfl, fun _ => rfl, fun n => lineRuns_of_encode rfl rfl, fun n hlow hhigh => ?_, fun n w h => ?_,
    fun c => lineRuns_of_encode rfl rfl, fun c => lineRuns_of_encode rfl rfl, fun lo hi => lineRuns_of_encode rfl rfl,
    fun n c => ⟨lineRuns_channel 0x4#4 n rfl rfl, lineRuns_channel 0x5#4 n rfl rfl, lineRuns_channel 0x6#4 n rfl rfl⟩,
    fun n => ⟨lineRuns_channel 0x7#4 n rfl rfl, lineRuns_channel 0x8#4 n rfl rfl, lineRuns_channel 0x9#4 n rfl rfl,
      lineRuns_channel 0xA#4 n rfl rfl, lineRuns_channel 0xB#4 n rfl rfl⟩,
    fun n on off => lineRuns_channel 0xC#4 n rfl rfl, fun on off => lineRuns_of_encode rfl rfl, lineRuns_of_encode rfl rfl⟩
  · refine ⟨BitVec.ofInt 32 n, ?_, lineRuns_of_encode rfl rfl⟩
    rw [BitVec.toInt_ofInt]
    exact Int.bmod_eq_of_le (by omega) (by omega)
  · exact lineRuns_of_encode (decide_eq_true (channelCode_lt n)) (encode_addr_toNat (channelCode_lt n) w h)

end Sys2Proof.Machine

/-! ## 41_address_mux.md: the laws of the multiplexer -/

namespace Sys2Proof.Machine

/-- The base address of a block is its own block's, whichever of the two kinds it is. -/
theorem blockBase_cases (c : Config) {ch : Nat} (h : ch ≤ 16) :
    (ch = 16 ∧ blockBase c ch = c.allBase.toNat) ∨ (ch ≤ 15 ∧ blockBase c ch = c.chBase.toNat + 4 * ch) := by
  obtain rfl | hlt := h.eq_or_lt
  · exact .inl ⟨rfl, blockBase_all c⟩
  · exact .inr ⟨by omega, blockBase_of_le c (by omega)⟩

theorem selectionOffset_le (w : Which) (h : Half) : 2 * whichOffset w + halfOffset h ≤ 3 := by
  cases w <;> cases h <;> decide

theorem selectionOffset_injective {w w' : Which} {h h' : Half}
    (heq : 2 * whichOffset w + halfOffset h = 2 * whichOffset w' + halfOffset h') : w = w' ∧ h = h' := by
  cases w <;> cases w' <;> cases h <;> cases h' <;> revert heq <;> decide

/-- Every offset in a 4-byte block is the offset of a selection. -/
theorem exists_selectionOffset {o : Nat} (ho : o ≤ 3) : ∃ w h, 2 * whichOffset w + halfOffset h = o := by
  interval_cases o
  · exact ⟨.on, .low, rfl⟩
  · exact ⟨.on, .high, rfl⟩
  · exact ⟨.off, .low, rfl⟩
  · exact ⟨.off, .high, rfl⟩

/-- Two blocks of four addresses meet in a well-formed configuration only if they are the same one. -/
theorem blockBase_injective {c : Config} (hc : c.WF) {ch ch' o o' : Nat} (hch : ch ≤ 16) (hch' : ch' ≤ 16) (ho : o ≤ 3)
    (ho' : o' ≤ 3) (heq : blockBase c ch + o = blockBase c ch' + o') : ch = ch' ∧ o = o' := by
  obtain ⟨-, -, hapart, -, -⟩ := hc
  obtain ⟨h, hb⟩ | ⟨h, hb⟩ := blockBase_cases c hch <;> obtain ⟨h', hb'⟩ | ⟨h', hb'⟩ := blockBase_cases c hch' <;>
    rw [hb, hb'] at heq <;> omega

/-- Settles O19: an address is the base of its block, blocks being four apart, and the offset of its selection. -/
theorem multiplexerLaws : Obligations.MultiplexerLaws := by
  intro c hc
  refine ⟨fun ch ch' w w' h h' hch hch' heq => ?_, fun ch w hch => ?_, fun ch hch => ?_, fun k w h hk => ?_,
    fun a hlow hhigh => ?_⟩
  · have hnat := congrArg BitVec.toNat heq
    rw [addrOf_toNat hc hch, addrOf_toNat hc hch', Nat.add_assoc, Nat.add_assoc] at hnat
    obtain ⟨hblock, hoffset⟩ :=
      blockBase_injective hc hch hch' (selectionOffset_le w h) (selectionOffset_le w' h') hnat
    exact ⟨hblock, selectionOffset_injective hoffset⟩
  · rw [addrOf_toNat hc hch, addrOf_toNat hc hch]; rfl
  · rw [addrOf_toNat hc hch, addrOf_toNat hc hch]; rfl
  · rw [addrOf_toNat hc (by omega), addrOf_toNat hc (by omega), blockBase_of_le c (by omega), blockBase_of_le c (by omega)]
    omega
  · obtain ⟨w, h, hoffset⟩ := exists_selectionOffset (o := (a - c.chBase.toNat) % 4) (by omega)
    refine ⟨(a - c.chBase.toNat) / 4, w, h, by omega, ?_⟩
    rw [addrOf_toNat hc (by omega), blockBase_of_le c (by omega)]
    omega

end Sys2Proof.Machine

/-! ## 00_scope.md and 10_state.md: the parameters, and what a step and a run take -/

namespace Sys2Proof

/-- R9 by single addresses and R9 by the ends of the blocks say the same. -/
theorem Config.apart_iff_wf {c : Config} : c.Apart ↔ c.WF := by
  constructor
  · rintro ⟨hch, hall, hapart, hmode⟩
    have hfirst := hapart c.allBase.toNat (by omega) (by omega)
    have hlast := hapart (c.allBase.toNat + 3) (by omega) (by omega)
    have hmode1 : ¬ (c.allBase.toNat ≤ c.mode1Addr.toNat ∧ c.mode1Addr.toNat ≤ c.allBase.toNat + 3) :=
      fun ⟨hlow, hhigh⟩ => (hapart c.mode1Addr.toNat hlow hhigh).2 rfl
    refine ⟨hch, hall, ?_, ?_, ?_⟩ <;> omega
  · rintro ⟨hch, hall, hblocks, hall1, hch1⟩
    exact ⟨hch, hall, fun a hlow hhigh => ⟨by omega, by omega⟩, by omega⟩

end Sys2Proof

namespace Sys2Proof.Machine

/-- Settles O8: a step looks at R9 before anything else, and past it always goes on. -/
theorem onlyAnIllFormedConfigurationStops : Obligations.OnlyAnIllFormedConfigurationStops := by
  simp only [Obligations.OnlyAnIllFormedConfigurationStops, Config.apart_iff_wf]
  refine ⟨fun s hc => ?_, fun s => step_next, fun c ch w h hc hch => ?_, by decide⟩
  · rw [step, accept_illFormed hc]
  · rw [← addrOf_toNat hc hch]
    exact Nat.le_of_lt_succ (addrOf c ch w h).isLt

/-! ### What every command and every step does to the ports, the parameters and the host's list -/

/-- A status without any other field is a legal result unless it is BUS_ERROR. -/
theorem Result.legal_of_status {e : Status} (hbus : e ≠ .busError) : ({ status := e } : Result).Legal where
  berr := by simpa using hbus
  onError _ := rfl
  channel := by simp
  count := by simp
  onCounts := by simp
  offCounts := by simp

theorem exec_frame {i : Instr} {s t : State} (h : exec i s = .next t) :
    t.cfg = s.cfg ∧ t.opd = none ∧ t.inputs = s.inputs := by
  obtain ⟨r, -, -, -, rfl, -⟩ | ⟨-, -, p, -, ⟨e, -, -, rfl⟩ | ⟨g, hg, hend⟩⟩ := exec_cases h
  · exact ⟨rfl, rfl, rfl⟩
  · simp
  · obtain ⟨-, hcfg, -, -, hinputs, -⟩ := hg.facts
    obtain ⟨e, -, rfl⟩ | ⟨d, -, rfl⟩ := hend <;> simp [hcfg, hinputs]

/-- A step takes the host's next input, keeps the parameters, frees the operand port, and leaves no result or a legal one. -/
theorem step_frame {s t : State} (h : step s = .next t) :
    t.cfg = s.cfg ∧ t.inputs = s.inputs.tail ∧ t.opd = none ∧ ∀ r, t.res = some r → r.Legal := by
  obtain ⟨-, ⟨hi, rfl⟩ | ⟨rest, hi, rfl⟩ | ⟨c, rest, e, hi, -, rfl⟩ | ⟨c, rest, i, hi, -, hexec⟩⟩ := step_cases h
  · simp [hi]
  · simp [hi]
  · refine ⟨rfl, by simp [hi], rfl, ?_⟩
    rintro r ⟨⟩
    exact Result.legal_of_status (by decide)
  · obtain ⟨hcfg, hopd, hinputs⟩ := exec_frame hexec
    obtain ⟨r, hres, hlegal, -⟩ := exec_result hexec
    exact ⟨hcfg, by rw [hinputs, hi]; rfl, hopd, fun r' hr' => Option.some.inj (hres.symm.trans hr') ▸ hlegal⟩

/-- Settles O7: the word decodes, so the block accepts the command with its record. -/
theorem stepRunsTheDecodedCommand : Obligations.StepRunsTheDecodedCommand := fun _ _ _ _ hc hi hd => step_command hc hi hd

/-- Settles O9: with nothing presented the block accepts nothing. -/
theorem idleStepOnlyEmptiesTheResultPort : Obligations.IdleStepOnlyEmptiesTheResultPort := by
  have idle {s : State} (hc : s.cfg.WF) (hi : s.inputs = []) : step s = .next { s with opd := none, res := none } := by
    rw [step, accept_idle hc hi]
  refine ⟨fun _ => idle, fun s hc hi hopd => ?_⟩
  rw [idle hc hi, ← hopd]

/-- Settles O11: the reset state is written out, and the defaults are numbers. -/
theorem resetState : Obligations.ResetState :=
  ⟨fun _ => ⟨rfl, rfl, rfl, rfl, rfl, rfl⟩, rfl, rfl, rfl, by decide⟩

/-- Settles O13: each step goes on, takes one input and keeps the configuration well formed. -/
theorem runsTakeInputsInOrder : Obligations.RunsTakeInputsInOrder := by
  intro k
  induction k with
  | zero => exact fun s _ => ⟨s, rfl, rfl, rfl⟩
  | succ k ih =>
    intro s hc
    obtain ⟨u, hu⟩ := step_next hc
    obtain ⟨hcfg, hinputs, -⟩ := step_frame hu
    obtain ⟨t, hrun, htinputs, htcfg⟩ := ih u (hcfg ▸ hc)
    refine ⟨t, (runSteps_succ_of_next hu).trans hrun, ?_, htcfg.trans hcfg⟩
    rw [htinputs, hinputs, List.drop_tail]

end Sys2Proof.Machine

/-! ## 20_memory.md and 43_autoincrement_gate.md: what a command and a step log, and what the gate is before and after -/

namespace Sys2Proof.Machine

/-! ### What a command logs -/

/-- A log entry that is some command's payload request with a response of its shape. -/
def IsPayload (c : Config) (x : Transaction) : Prop :=
  ∃ (i : Instr) (o : Operands), i.ChecksPass o ∧ i.payload? c o = some x.req ∧ Fits x.req x.resp

/-- What one command may add to the log, by the gate before it and the gate after it (R90, R95): nothing, the failed mode-1
write, or the payload after what a passing gate adds. -/
inductive CommandLog (c : Config) : Bool → Bool → List Transaction → Prop where
  | silent (b : Bool) : CommandLog c b b []
  | gateFailed (e : BusErr) : CommandLog c false false [{ req := gateRequest c, resp := .err e }]
  | payload (b : Bool) {x : Transaction} (hx : IsPayload c x) :
    CommandLog c b true ((if b then [] else [gateEntry c]) ++ [x])

theorem exec_commandLog {i : Instr} {s t : State} (h : exec i s = .next t) :
    ∃ new, t.log = s.log ++ new ∧ CommandLog s.cfg s.ai t.ai new := by
  obtain ⟨r, -, -, -, rfl, -⟩ | ⟨-, hpass, p, hp, ⟨e, hai, he, rfl⟩ | ⟨g, hg, hend⟩⟩ := exec_cases h
  · exact ⟨[], by simp, .silent _⟩
  · refine ⟨[{ req := gateRequest s.cfg, resp := .err e }], by simp [he], ?_⟩
    rw [raiseBus_ai, State.submit_ai, hai]
    exact .gateFailed e
  · obtain ⟨hset, -, -, -, -, hlog⟩ := hg.facts
    have hx : IsPayload s.cfg { req := p, resp := respond g.peek p } :=
      ⟨i, s.operands, hpass, hp, fits_respond_payload hp _⟩
    have ht : t.ai = true ∧ t.log = s.log ++ (gateEntries s ++ [{ req := p, resp := respond g.peek p }]) := by
      obtain ⟨e, -, rfl⟩ | ⟨d, -, rfl⟩ := hend <;> simp [hset, hlog]
    obtain ⟨htai, htlog⟩ := ht
    exact ⟨_, htlog, htai ▸ .payload s.ai hx⟩

/-- A step logs what one command may log, or takes a reset, which unsets the gate and logs nothing. -/
theorem step_log {s t : State} (h : step s = .next t) :
    (s.inputs.head? = some .reset ∧ t.ai = false ∧ t.log = s.log) ∨
    (s.inputs.head? ≠ some .reset ∧ ∃ new, t.log = s.log ++ new ∧ CommandLog s.cfg s.ai t.ai new) := by
  obtain ⟨-, ⟨hi, rfl⟩ | ⟨rest, hi, rfl⟩ | ⟨c, rest, e, hi, -, rfl⟩ | ⟨c, rest, i, hi, -, hexec⟩⟩ := step_cases h
  · exact .inr ⟨by simp [hi], [], by simp, .silent _⟩
  · exact .inl ⟨by simp [hi], rfl, rfl⟩
  · exact .inr ⟨by simp [hi], [], by simp, .silent _⟩
  · obtain ⟨new, hlog, hnew⟩ := exec_commandLog hexec
    exact .inr ⟨by simp [hi], new, hlog, hnew⟩

/-- A step that takes no reset logs what one command may log. -/
theorem step_commandLog {s t : State} (h : step s = .next t) (hi : s.inputs.head? ≠ some .reset) :
    ∃ new, t.log = s.log ++ new ∧ CommandLog s.cfg s.ai t.ai new := by
  obtain ⟨hreset, -⟩ | ⟨-, hnew⟩ := step_log h
  · exact absurd hreset hi
  · exact hnew

/-! ### The gate over one step -/

theorem CommandLog.stays_set {c : Config} {b : Bool} {new : List Transaction} (h : CommandLog c true b new) : b = true := by
  cases h <;> rfl

/-- An Unset gate becomes Set only by the successful mode-1 write, which comes first. -/
theorem CommandLog.starts_with_gateEntry {c : Config} {new : List Transaction} (h : CommandLog c false true new) :
    ∃ more, new = gateEntry c :: more := by
  cases h
  exact ⟨_, rfl⟩

/-- Settles O27: a step's log and gate are those of one command unless it takes a reset. -/
theorem onlyTheGateWriteSetsTheGate : Obligations.OnlyTheGateWriteSetsTheGate := by
  intro s t h
  obtain ⟨hreset, htai, -⟩ | ⟨hno, new, hlog, hnew⟩ := step_log h
  · exact ⟨fun _ hno => absurd hreset hno, fun _ => htai, fun _ hset => absurd (htai.symm.trans hset) (by decide)⟩
  · refine ⟨fun hset _ => ?_, fun hreset => absurd hreset hno, fun hunset hset => ?_⟩
    · rw [hset] at hnew
      exact hnew.stays_set
    · rw [hunset, hset] at hnew
      obtain ⟨more, rfl⟩ := hnew.starts_with_gateEntry
      exact ⟨more, hlog⟩

theorem step_reset {s : State} {rest : List HostInput} (hc : s.cfg.WF) (hi : s.inputs = .reset :: rest) :
    step s = .next { s with inputs := rest, ai := false, opd := none, res := none } := by
  rw [step, accept_reset hc hi]; rfl

/-- Settles O10: a reset writes the block's one bit and its ports, and no other input leaves a Set gate Unset. -/
theorem resetUnsetsTheGate : Obligations.ResetUnsetsTheGate := by
  refine ⟨fun s rest => step_reset, fun s t h hset hunset => ?_⟩
  obtain ⟨hstays, -, -⟩ := onlyTheGateWriteSetsTheGate s t h
  by_contra hno
  exact absurd ((hstays hset hno).symm.trans hunset) (by decide)

/-- A step that is presented a command, legal or not, delivers a result. -/
theorem step_delivers {s : State} {c : Command} {rest : List HostInput} (hc : s.cfg.WF)
    (hi : s.inputs = .command c :: rest) : ∃ t r, step s = .next t ∧ t.res = some r := by
  obtain ⟨t, r, hstep, hres, -⟩ := step_illegalCommand_iff hc hi
  exact ⟨t, r, hstep, hres⟩

/-- Settles O12: the command is the input taken, its result is delivered, and its log entries come after the old ones. -/
theorem oneCommandPerStep : Obligations.OneCommandPerStep := by
  intro s c rest hc hi
  obtain ⟨t, r, hstep, hres⟩ := step_delivers hc hi
  obtain ⟨hcfg, hinputs, hopd, -⟩ := step_frame hstep
  obtain ⟨new, hlog, -⟩ := step_commandLog hstep (by simp [hi])
  exact ⟨t, r, hstep, by rw [hinputs, hi]; rfl, hres, hcfg, hopd, new, hlog⟩

/-! ### The gate over a run -/

/-- Induction over a run that takes no reset, by what each step logs. -/
theorem runSteps_induction_noReset {R : State → State → Prop} (refl : ∀ s, R s s)
    (head : ∀ s u t new, u.cfg = s.cfg → u.log = s.log ++ new → CommandLog s.cfg s.ai u.ai new → R u t → R s t) :
    ∀ (k : Nat) (s t : State), .reset ∉ s.inputs.take k → runSteps k s = .next t → R s t := by
  intro k
  induction k with
  | zero => intro s t _ h; cases h; exact refl s
  | succ k ih =>
    intro s t hno h
    obtain ⟨u, hu, hrun⟩ := runSteps_succ_cases h
    obtain ⟨hcfg, hinputs, -⟩ := step_frame hu
    obtain ⟨hhead, htail⟩ : s.inputs.head? ≠ some .reset ∧ .reset ∉ u.inputs.take k := by
      rw [hinputs]
      cases hi : s.inputs with
      | nil => simp
      | cons x rest =>
        rw [hi, List.take_succ_cons, List.mem_cons, not_or] at hno
        exact ⟨fun hx => hno.1 (Option.some.inj hx).symm, hno.2⟩
    obtain ⟨new, hlog, hnew⟩ := step_commandLog hu hhead
    exact head s u t new hcfg hlog hnew (ih u t htail hrun)

/-- The gate write has two bytes and a payload write has more, so no payload is the gate write (R35). -/
theorem IsPayload.req_ne_gateRequest {c : Config} {x : Transaction} (h : IsPayload c x) : x.req ≠ gateRequest c := by
  obtain ⟨i, o, -, hp, -⟩ := h
  intro hgate
  rw [hgate] at hp
  cases i <;> simp [Instr.payload?, gateRequest] at hp
  case setall =>
    obtain ⟨-, hbytes⟩ := hp
    simpa using congrArg List.length hbytes

theorem gateWrites_append (c : Config) (a b : List Transaction) : gateWrites c (a ++ b) = gateWrites c a + gateWrites c b :=
  List.countP_append

theorem gateWrites_gateEntry (c : Config) : gateWrites c [gateEntry c] = 1 := by simp [gateWrites]

theorem gateWrites_singleton_of_ne {c : Config} {x : Transaction} (h : x ≠ gateEntry c) : gateWrites c [x] = 0 := by
  simp [gateWrites, h]

/-- What a command logs holds one successful mode-1 write when it sets the gate, and none otherwise. -/
theorem CommandLog.gateWrites_eq {c : Config} {b b' : Bool} {new : List Transaction} (h : CommandLog c b b' new) :
    gateWrites c new + b.toNat = b'.toNat := by
  cases h with
  | silent => exact Nat.zero_add _
  | gateFailed e => rw [gateWrites_singleton_of_ne (by simp [gateEntry])]; rfl
  | payload b hx =>
    have hne : gateWrites c [_] = 0 := gateWrites_singleton_of_ne fun heq => hx.req_ne_gateRequest (congrArg Transaction.req heq)
    rw [gateWrites_append, hne]
    cases b with
    | true => rfl
    | false => rw [if_neg (by decide), gateWrites_gateEntry]; rfl

/-- Settles O28: each step keeps the difference between the mode-1 writes logged and the gate. -/
theorem gateWriteSucceedsOncePerLifetime : Obligations.GateWriteSucceedsOncePerLifetime := by
  refine runSteps_induction_noReset (fun s => ⟨rfl, id⟩) fun s u t new hcfg hlog hnew => ?_
  rintro ⟨hcount, hset⟩
  rw [hcfg, hlog, gateWrites_append] at hcount
  have hwrites := hnew.gateWrites_eq
  refine ⟨by omega, fun hai => hset ?_⟩
  rw [hai] at hnew
  exact hnew.stays_set

theorem gateFirst_nil (c : Config) : GateFirst c [] := by
  intro before t after h
  simp at h

theorem gateFirst_gateRequest {c : Config} {x : Transaction} (hx : x.req = gateRequest c) : GateFirst c [x] := by
  intro before t after h hne
  obtain rfl : t = x := List.mem_singleton.mp (h ▸ List.mem_append_right before List.mem_cons_self)
  exact absurd hx hne

/-- Two logs in a row: the second one is in order by itself, or follows a successful mode-1 write. -/
theorem GateFirst.append {c : Config} {a b : List Transaction} (ha : GateFirst c a)
    (hb : gateEntry c ∈ a ∨ GateFirst c b) : GateFirst c (a ++ b) := by
  intro before t after h hne
  have late {m : List Transaction} (hbefore : before = a ++ m) (hm : b = m ++ t :: after) : gateEntry c ∈ before := by
    rw [hbefore, List.mem_append]
    exact hb.imp_right fun hfirst => hfirst m t after hm hne
  obtain ⟨m, hbefore, hm⟩ | ⟨m, hm, hafter⟩ := List.append_eq_append_iff.mp h
  · exact late hbefore hm
  · cases m with
    | nil => exact late (m := []) (by simpa using hm.symm) (by simpa using hafter.symm)
    | cons x m =>
      obtain ⟨rfl, -⟩ := List.cons.inj hafter
      exact ha before t m hm hne

/-- What a command logs is in order when the gate is Unset before it. -/
theorem CommandLog.gateFirst {c : Config} {b : Bool} {new : List Transaction} (h : CommandLog c false b new) :
    GateFirst c new := by
  cases h with
  | silent => exact gateFirst_nil c
  | gateFailed e => exact gateFirst_gateRequest rfl
  | payload _ hx => exact (gateFirst_gateRequest rfl).append (.inl (List.mem_singleton_self _))

/-- Settles O29: each step's entries are in order while the gate is Unset, and the step that sets it logs the mode-1 write. -/
theorem gateWritePrecedesEveryPayload : Obligations.GateWritePrecedesEveryPayload := by
  suffices ∀ (k : Nat) (s t : State), .reset ∉ s.inputs.take k → runSteps k s = .next t →
      ∃ new, t.log = s.log ++ new ∧ (s.ai = false → GateFirst s.cfg new) from
    fun k s t hno hai h => (this k s t hno h).imp fun _ ⟨hlog, hfirst⟩ => ⟨hlog, hfirst hai⟩
  refine runSteps_induction_noReset (fun s => ⟨[], by simp, fun _ => gateFirst_nil _⟩) fun s u t new hcfg hlog hnew => ?_
  rintro ⟨later, htlog, hfirst⟩
  refine ⟨new ++ later, by rw [htlog, hlog, List.append_assoc], fun hai => ?_⟩
  rw [hai] at hnew
  refine hnew.gateFirst.append ?_
  cases hu : u.ai with
  | false => exact .inr (hcfg ▸ hfirst hu)
  | true =>
    rw [hu] at hnew
    obtain ⟨more, rfl⟩ := hnew.starts_with_gateEntry
    exact .inl List.mem_cons_self

end Sys2Proof.Machine

/-! ## 20_memory.md section 4: the registers a request touches -/

namespace Sys2Proof.Machine

theorem touched_write (dev : DevAddr) (a : Byte) (ds : List Byte) :
    (Request.write dev (a :: ds)).touched = (List.range ds.length).map (a.toNat + ·) := rfl

theorem touched_read (dev : DevAddr) (a : Byte) (n : Nat) :
    (Request.writeRead dev [a] n).touched = (List.range n).map (a.toNat + ·) := rfl

theorem gateRequest_touched (c : Config) : (gateRequest c).touched = [c.mode1Addr.toNat] := rfl

/-- A payload touches `n` registers from the low byte of a pair on: the pair, the whole block from its on pair on, or all 16
channel blocks (R35, R112). -/
theorem payload?_touched {i : Instr} {c : Config} {o : Operands} {p : Request} (h : i.payload? c o = some p)
    (hpass : i.ChecksPass o) :
    ∃ (ch : Nat) (w : Which) (n : Nat), ch ≤ 16 ∧ p.touched = (List.range n).map ((addrOf c ch w .low).toNat + ·) ∧ 0 < n ∧
      (2 * whichOffset w + n ≤ 4 ∨ ch = 0 ∧ w = .on ∧ n = 64) := by
  obtain ⟨hch, -⟩ := hpass
  cases i <;> simp only [Instr.payload?, reduceCtorEq, Option.some.injEq] at h <;> subst h <;>
    simp only [Instr.channel?, Option.some.injEq, forall_eq'] at hch
  case setall => exact ⟨0, .on, 64, Nat.zero_le _, by rw [touched_write, bulkFrame_length, addrOf_bulk], by decide,
    .inr ⟨rfl, rfl, rfl⟩⟩
  case getall => exact ⟨0, .on, 64, by decide, by rw [touched_read, addrOf_bulk], by decide, .inr ⟨rfl, rfl, rfl⟩⟩
  case setonoff => exact ⟨_, .on, 4, hch, touched_write .., by decide, .inl (by decide)⟩
  case seton | setfon => exact ⟨_, .on, 2, hch, touched_write .., by decide, .inl (by decide)⟩
  case setoff | setfoff => exact ⟨_, .off, 2, hch, touched_write .., by decide, .inl (by decide)⟩
  case geton | getfon => exact ⟨_, .on, 2, hch, touched_read .., by decide, .inl (by decide)⟩
  case getoff | getfoff => exact ⟨_, .off, 2, hch, touched_read .., by decide, .inl (by decide)⟩

theorem gateRequest_mapped (c : Config) : MappedAndAligned c (gateRequest c) := .inl ⟨rfl, gateRequest_touched c⟩

theorem IsPayload.mapped {c : Config} {x : Transaction} (hc : c.WF) (h : IsPayload c x) : MappedAndAligned c x.req := by
  obtain ⟨i, o, hpass, hp, -⟩ := h
  obtain ⟨ch, w, n, hch, htouched, hn, hlen⟩ := payload?_touched hp hpass
  refine .inr ⟨fun a ha => ?_, ch, w, hch, ?_⟩
  · rw [htouched] at ha
    obtain ⟨j, hj, rfl⟩ := List.mem_map.mp ha
    rw [List.mem_range] at hj
    rw [addrOf_toNat hc hch, halfOffset]
    obtain hshort | ⟨rfl, rfl, rfl⟩ := hlen
    · obtain ⟨-, hb⟩ | ⟨hle, hb⟩ := blockBase_cases c hch <;> rw [hb] <;> omega
    · rw [blockBase_of_le c (by decide), whichOffset]
      omega
  · obtain ⟨m, rfl⟩ := Nat.exists_eq_add_one_of_ne_zero hn.ne'
    rw [htouched, List.range_succ_eq_map]
    rfl

/-- Each entry a command logs is a mode-1 write with a response of its shape, or a payload. -/
theorem CommandLog.entry {c : Config} {b b' : Bool} {new : List Transaction} (h : CommandLog c b b' new) :
    ∀ x ∈ new, (x.req = gateRequest c ∧ Fits x.req x.resp) ∨ IsPayload c x := by
  cases h with
  | silent => exact List.forall_mem_nil _
  | gateFailed e => exact List.forall_mem_singleton.mpr (.inl ⟨rfl, trivial⟩)
  | payload b hx =>
    intro y hy
    obtain hgate | hpay := List.mem_append.mp hy
    · cases b with
      | true => cases hgate
      | false => rw [List.mem_singleton.mp hgate]; exact .inl ⟨rfl, trivial⟩
    · rw [List.mem_singleton.mp hpay]; exact .inr hx

theorem CommandLog.mapped {c : Config} {b b' : Bool} {new : List Transaction} (hc : c.WF) (h : CommandLog c b b' new) :
    ∀ x ∈ new, MappedAndAligned c x.req := by
  intro x hx
  obtain ⟨hgate, -⟩ | hpay := h.entry x hx
  · rw [hgate]; exact gateRequest_mapped c
  · exact hpay.mapped hc

/-- A step's new log entries are those of one command; a reset has none. -/
theorem step_new {s t : State} (h : step s = .next t) :
    ∃ b new, t.log = s.log ++ new ∧ CommandLog s.cfg s.ai b new := by
  obtain ⟨-, -, hlog⟩ | ⟨-, new, hlog, hnew⟩ := step_log h
  · exact ⟨s.ai, [], by rw [hlog, List.append_nil], .silent _⟩
  · exact ⟨_, new, hlog, hnew⟩

/-- Settles O42: an entry is the mode-1 write or a payload, which stays within its block or within the channel blocks. -/
theorem requestsStayInTheAddressMap : Obligations.RequestsStayInTheAddressMap := by
  refine ⟨fun i s t hc h => ?_, fun s t h => ?_⟩
  · obtain ⟨new, hlog, hnew⟩ := exec_commandLog h
    exact ⟨new, hlog, hnew.mapped hc⟩
  · obtain ⟨b, new, hlog, hnew⟩ := step_new h
    exact ⟨new, hlog, hnew.mapped (step_cases h).1⟩

/-- Settles O40: submitting is one answer taken and one entry appended, and an answer has every request's shape. -/
theorem transportAnswersInShape : Obligations.TransportAnswersInShape := by
  refine ⟨fun r s => ⟨State.submit_log r s, State.submit_ai r s, State.submit_res r s⟩,
    fun a dev bytes n hn => ⟨fits_respond_write a dev bytes, fits_respond_read a dev bytes hn⟩,
    fun s a rest h => ?_, fun s h => ?_⟩
  · simp [State.peek, State.advance, h]
  · simp [State.peek, State.advance, h]

end Sys2Proof.Machine

/-! ## What a command leaves unchanged and does not depend on -/

namespace Sys2Proof.Machine

/-- A command that uses no bus or whose checks fail delivers one result, which the parameters and the operand record give. -/
theorem exec_without_bus {i : Instr} {o : Operands} (c : Config) (h : i.isBus = false ∨ ¬ i.ChecksPass o) :
    ∃ r : Result, ∀ s : State, s.cfg = c → s.operands = o → exec i s = .next (s.deliver r) := by
  obtain hb | hfail := h
  · obtain ⟨r, -, -, -, -, hexec⟩ := exec_pure hb c o
    exact ⟨r, hexec⟩
  · by_cases hch : i.BadChannel o
    · exact ⟨_, fun s _ ho => exec_of_badChannel (ho ▸ hch)⟩
    · have hct : i.BadCount o := by
        by_contra hct
        exact hfail (checksPass_of_not_bad hch hct)
      exact ⟨_, fun s _ ho => exec_of_badCount (ho ▸ hch) (ho ▸ hct)⟩

/-- Settles O43: what a command without the bus delivers depends on neither, and the bus skeleton adds the same entries to any
log. -/
theorem historyDoesNotMatter : Obligations.HistoryDoesNotMatter := by
  intro i s t log res h
  have hops : ({ s with log := log, res := res } : State).operands = s.operands := State.operands_congr rfl
  by_cases hbus : i.isBus = true ∧ i.ChecksPass s.operands
  · obtain ⟨hb, hpass⟩ := hbus
    obtain ⟨p, hp, hexec⟩ := exec_bus hb hpass
    obtain ⟨q, hq, hexec'⟩ := exec_bus (s := { s with log := log, res := res }) hb (hops ▸ hpass)
    obtain rfl : p = q := Option.some.inj (hp.symm.trans (hops ▸ hq))
    cases hexec.symm.trans h
    obtain ⟨new, hlog, hupdate⟩ := runRequest_update p (busResult · i) s
    have hinputs : (runRequest p (busResult · i) s).inputs = s.inputs := (exec_frame hexec).2.2
    exact ⟨new, hlog, by rw [hexec', hupdate s.opd res log s.inputs, ← hinputs]⟩
  · have hno : i.isBus = false ∨ ¬ i.ChecksPass s.operands := by
      rw [← Bool.not_eq_true]
      exact not_and_or.mp hbus
    obtain ⟨r, hexec⟩ := exec_without_bus s.cfg hno
    cases (hexec s rfl rfl).symm.trans h
    exact ⟨[], by simp, by rw [hexec { s with log := log, res := res } rfl hops, List.append_nil]; rfl⟩

/-- A passing gate uses up one answer for each entry it adds. -/
theorem GatePassed.answers {s g : State} (h : GatePassed s g) :
    g.answers = s.answers.drop (gateEntries s).length ∧ g.draws = s.draws + ((gateEntries s).length - s.answers.length) := by
  obtain ⟨hai, rfl⟩ | ⟨hai, -, rfl⟩ := h
  · simp [gateEntries, hai]
  · simp [gateEntries, hai, State.advance_draws]

theorem gateEntries_length_le (s : State) : (gateEntries s).length ≤ 1 := by
  unfold gateEntries
  split <;> simp

/-- A command uses up one answer for each entry it logs, and logs two at most. -/
theorem exec_answers {i : Instr} {s t : State} (h : exec i s = .next t) :
    ∃ new, t.log = s.log ++ new ∧ new.length ≤ 2 ∧ t.answers = s.answers.drop new.length ∧
      t.draws = s.draws + (new.length - s.answers.length) := by
  obtain ⟨r, -, -, -, rfl, -⟩ | ⟨-, -, p, -, ⟨e, -, -, rfl⟩ | ⟨g, hg, hend⟩⟩ := exec_cases h
  · exact ⟨[], by simp⟩
  · exact ⟨_, by rw [raiseBus_log, State.submit_log], by simp [State.advance_draws]⟩
  · obtain ⟨-, -, -, -, -, hlog⟩ := hg.facts
    obtain ⟨hanswers, hdraws⟩ := hg.answers
    have hlen := gateEntries_length_le s
    have ht : t.log = g.log ++ [{ req := p, resp := respond g.peek p }] ∧ t.answers = g.answers.tail ∧
        t.draws = g.draws + (1 - g.answers.length) := by
      obtain ⟨e, -, rfl⟩ | ⟨d, -, rfl⟩ := hend <;> simp [State.advance_draws]
    obtain ⟨htlog, htanswers, htdraws⟩ := ht
    refine ⟨gateEntries s ++ [{ req := p, resp := respond g.peek p }], by rw [htlog, hlog, List.append_assoc], ?_, ?_, ?_⟩
    · simpa using hlen
    · simp [htanswers, hanswers]
    · rw [htdraws, hdraws, hanswers, List.length_drop, List.length_append, List.length_singleton]
      omega

/-- Settles O44: each part is what every way a command can end leaves. -/
theorem commandFrame : Obligations.CommandFrame := by
  intro i s t h
  obtain ⟨hcfg, hopd, hinputs⟩ := exec_frame h
  obtain ⟨new, -, hnew⟩ := exec_commandLog h
  refine ⟨hcfg, hopd, hinputs, fun hai => ?_, exec_answers h, fun hb => exec_pure_frame hb h⟩
  rw [hai] at hnew
  exact hnew.stays_set

/-- A command that ends with INVALID_CHANNEL or INVALID_COUNT has changed the ports only. -/
theorem exec_invalid_frame {i : Instr} {s t : State} {r : Result} (h : exec i s = .next t) (hres : t.res = some r)
    (hs : r.status = .invalidChannel ∨ r.status = .invalidCount) : t = { s with opd := none, res := some r } := by
  obtain ⟨r', -, -, -, rfl, -⟩ | ⟨hb, -, p, -, ⟨e, -, -, rfl⟩ | ⟨g, -, ⟨e, -, rfl⟩ | ⟨d, -, rfl⟩⟩⟩ := exec_cases h
  all_goals cases hres
  · rfl
  · simp at hs
  · simp at hs
  · simp [(busResult_spec hb d).1] at hs

/-- Settles O47: a status is that of a failed check, which changes nothing, or of the failed transaction logged last. -/
theorem errorsLeaveBehind : Obligations.ErrorsLeaveBehind := by
  intro i s t r h hres
  obtain ⟨-, -, hne⟩ := exec_status_raiser h hres
  exact ⟨exec_invalid_frame h hres, fun hs => (exec_busError h hres hs).2, hne⟩

end Sys2Proof.Machine

/-! ## The invariant -/

namespace Sys2Proof.Machine

theorem device_payload? {i : Instr} {c : Config} {o : Operands} {p : Request} (h : i.payload? c o = some p) :
    p.device = c.devAddr := by
  cases i <;> simp only [Instr.payload?, reduceCtorEq, Option.some.injEq] at h <;> subst h <;> rfl

theorem inMap_of_mapped {c : Config} {p : Request} (h : MappedAndAligned c p) : ∀ a ∈ p.touched, InMap c a := by
  intro a ha
  obtain ⟨-, htouched⟩ | ⟨hblocks, -⟩ := h
  · rw [htouched] at ha
    exact .inl (List.mem_singleton.mp ha)
  · exact .inr (hblocks a ha)

section
variable {c : Config} {b b' : Bool} {new : List Transaction} (h : CommandLog c b b' new)
include h

theorem CommandLog.device : ∀ x ∈ new, x.req.device = c.devAddr := by
  intro x hx
  obtain ⟨hgate, -⟩ | ⟨i, o, -, hp, -⟩ := h.entry x hx
  · rw [hgate]; rfl
  · exact device_payload? hp

theorem CommandLog.inMap (hc : c.WF) : ∀ x ∈ new, ∀ a ∈ x.req.touched, InMap c a :=
  fun x hx => inMap_of_mapped (h.mapped hc x hx)

theorem CommandLog.shaped : ∀ x ∈ new, Fits x.req x.resp := by
  intro x hx
  obtain ⟨-, hfits⟩ | ⟨i, o, -, -, hfits⟩ := h.entry x hx <;> exact hfits

end

/-- After a step with the gate Set, the gate was Set before it or the step logged the successful mode-1 write. -/
theorem step_gateLogged {s t : State} (h : step s = .next t) (hset : t.ai = true) :
    s.ai = true ∨ gateEntry s.cfg ∈ t.log := by
  cases hai : s.ai with
  | true => exact .inl rfl
  | false =>
    obtain ⟨-, -, hsets⟩ := onlyTheGateWriteSetsTheGate s t h
    obtain ⟨more, hlog⟩ := hsets hai hset
    exact .inr (by simp [hlog])

/-- Settles O49: what one command may log keeps each part of the invariant that speaks of the log. -/
theorem stepKeepsTheInvariant : Obligations.StepKeepsTheInvariant := by
  intro s t hinv h
  obtain ⟨hcfg, -, hopd, hlegal⟩ := step_frame h
  obtain ⟨b, new, hlog, hnew⟩ := step_new h
  have entries {P : Transaction → Prop} (hold : ∀ x ∈ s.log, P x) (hadded : ∀ x ∈ new, P x) : ∀ x ∈ t.log, P x := by
    rw [hlog, List.forall_mem_append]
    exact ⟨hold, hadded⟩
  have hgateLogged : t.ai = true → gateEntry s.cfg ∈ t.log := by
    intro hset
    obtain hai | hmem := step_gateLogged h hset
    · rw [hlog]
      exact List.mem_append_left _ (hinv.gateLogged hai)
    · exact hmem
  have hgateFirst : GateFirst s.cfg t.log := by
    rw [hlog]
    refine hinv.gateFirst.append ?_
    cases hai : s.ai with
    | true => exact .inl (hinv.gateLogged hai)
    | false =>
      rw [hai] at hnew
      exact .inr hnew.gateFirst
  exact
    { config := hcfg ▸ hinv.config
      gateLogged := hcfg ▸ hgateLogged
      gateFirst := hcfg ▸ hgateFirst
      device := hcfg ▸ entries hinv.device hnew.device
      mapped := hcfg ▸ entries hinv.mapped (hnew.inMap hinv.config)
      shaped := entries hinv.shaped hnew.shaped
      operand := hopd
      result := hlegal }

/-- Settles O50: after reset the gate is Unset, the log and both ports are empty. -/
theorem resetMeetsTheInvariant : Obligations.ResetMeetsTheInvariant := by
  have reset (c : Config) (hc : c.WF) : Inv (State.resetWith c) :=
    { config := hc, gateLogged := nofun, gateFirst := gateFirst_nil c, device := nofun, mapped := nofun, shaped := nofun,
      operand := rfl, result := nofun }
  exact ⟨reset, reset Config.default (by decide)⟩

end Sys2Proof.Machine

/-! ## 95_test_vectors.md: counts programmed into the register-file fixture are read back -/

namespace Sys2Proof.Machine

/-! ### The fixture's registers after a write -/

/-- A byte written at `a` reaches the register at `x`: it is that register, or a channel's copy of one of the broadcast block. -/
def Reaches (c : Config) (a x : Nat) : Prop :=
  x = a ∨ (c.allBase.toNat ≤ a ∧ a ≤ c.allBase.toNat + 3 ∧ c.chBase.toNat ≤ x ∧ x ≤ c.chBase.toNat + 63 ∧
    (x - c.chBase.toNat) % 4 = a - c.allBase.toNat)

theorem rfPut_of_reaches {c : Config} {a x : Nat} (d : Byte) (rf : RegFile) (h : Reaches c a x) : rfPut c a d rf x = d := by
  rw [rfPut]
  obtain hself | hcopy := h
  · rw [if_pos hself]
  · rw [if_pos hcopy, ite_self]

theorem rfPut_of_not_reaches {c : Config} {a x : Nat} (d : Byte) (rf : RegFile) (h : ¬ Reaches c a x) :
    rfPut c a d rf x = rf x := by
  obtain ⟨hself, hcopy⟩ := not_or.mp h
  rw [rfPut, if_neg hself, if_neg hcopy]

/-- A register that no byte of a write reaches keeps its value. -/
theorem rfPutAll_of_not_reaches {c : Config} {x : Nat} {ds : List Byte} :
    ∀ {a : Nat} (rf : RegFile), (∀ j < ds.length, ¬ Reaches c (a + j) x) → rfPutAll c a ds rf x = rf x := by
  induction ds with
  | nil => intro a rf _; rfl
  | cons d ds ih =>
    intro a rf h
    have hfirst : ¬ Reaches c a x := h 0 (Nat.zero_lt_succ _)
    have hrest : ∀ j < ds.length, ¬ Reaches c (a + 1 + j) x := fun j hj => by
      rw [Nat.add_right_comm]
      exact h (j + 1) (Nat.succ_lt_succ hj)
    rw [rfPutAll, ih _ hrest, rfPut_of_not_reaches d rf hfirst]

/-- A register that one byte of a write reaches, and no later one, holds that byte. -/
theorem rfPutAll_of_reaches {c : Config} {x : Nat} {d : Byte} {ds : List Byte} :
    ∀ {a j : Nat} (rf : RegFile), ds[j]? = some d → (∀ i < ds.length, Reaches c (a + i) x ↔ i = j) →
      rfPutAll c a ds rf x = d := by
  induction ds with
  | nil => intro a j rf hd; cases hd
  | cons e ds ih =>
    intro a j rf hd h
    have hfirst : Reaches c a x ↔ 0 = j := h 0 (Nat.zero_lt_succ _)
    have hrest (i : Nat) (hi : i < ds.length) : Reaches c (a + 1 + i) x ↔ i + 1 = j := by
      rw [Nat.add_right_comm]
      exact h (i + 1) (Nat.succ_lt_succ hi)
    rw [rfPutAll]
    cases j with
    | zero =>
      have hnone : ∀ i < ds.length, ¬ Reaches c (a + 1 + i) x := fun i hi hr => Nat.succ_ne_zero i ((hrest i hi).mp hr)
      rw [rfPutAll_of_not_reaches _ hnone, rfPut_of_reaches e rf (hfirst.mpr rfl)]
      exact Option.some.inj hd
    | succ j => exact ih _ hd fun i hi => (hrest i hi).trans Nat.succ_inj

/-- A write to a channel's block or to the broadcast block reaches each register of a channel with one byte of the block. -/
theorem reaches_block_iff {c : Config} (hc : c.WF) {ch k i o : Nat} (hk : k ≤ 15) (hch : ch = k ∨ ch = 16) (hi : i ≤ 3)
    (ho : o ≤ 3) : Reaches c (blockBase c ch + i) (c.chBase.toNat + 4 * k + o) ↔ i = o := by
  obtain ⟨-, -, hapart, -, -⟩ := hc
  obtain rfl | rfl := hch
  · rw [blockBase_of_le c hk, Reaches]
    omega
  · rw [blockBase_all, Reaches]
    omega

/-- A write from CH_BASE on reaches each register of the channel blocks with the one byte at its place. -/
theorem reaches_bulk_iff {c : Config} (hc : c.WF) {i j : Nat} (hi : i < 64) :
    Reaches c (c.chBase.toNat + i) (c.chBase.toNat + j) ↔ i = j := by
  obtain ⟨-, -, hapart, -, -⟩ := hc
  rw [Reaches]
  omega

/-! ### A count held in a register pair -/

/-- The pair of registers at `a` holds the count `n`, flag clear. -/
def HoldsCount (rf : RegFile) (a : Nat) (n : Word) : Prop := rf a = lowByte n ∧ rf (a + 1) = highByte n

/-- What the two registers of a pair that holds a count unpack to. -/
theorem HoldsCount.unpack {rf : RegFile} {a : Nat} {n : Word} (h : HoldsCount rf a n) (hn : n.toNat ≤ 4095) :
    countOf (rf a) (rf (a + 1)) = n ∧ flagOf (rf (a + 1)) = false := by
  obtain ⟨hlow, hhigh⟩ := h
  rw [hlow, hhigh]
  exact countOf_bytes hn

/-- The fixture's registers after a log whose last transaction is a successful write. -/
theorem rfReplay_write (c : Config) (log : List Transaction) (dev : DevAddr) (a : Byte) (ds : List Byte) (rf : RegFile) :
    rfReplay c (log ++ [{ req := .write dev (a :: ds), resp := .ok }]) rf = rfPutAll c a.toNat ds (rfReplay c log rf) := by
  rw [rfReplay, List.foldl_append]
  rfl

/-! ### A command that programs, and a command that reads back -/

/-- The checks of a command that ends with OK passed. -/
theorem checksPass_of_ok {i : Instr} {s t : State} {r : Result} (h : exec i s = .next t)
    (hres : t.res = some r) (hok : r.status = .ok) : i.ChecksPass s.operands := by
  by_contra hfail
  obtain hexec | hexec := exec_of_not_checksPass hfail
  all_goals
    cases hexec.symm.trans h
    cases hres
    cases hok

/-- A command whose payload is a write, ended with OK, leaves the gate Set, and the fixture's registers are those of the write
over some others. -/
theorem exec_write_ok {i : Instr} {s t : State} {r : Result} {dev : DevAddr} {a : Byte} {ds : List Byte} (hb : i.isBus = true)
    (hp : i.payload? s.cfg s.operands = some (.write dev (a :: ds))) (h : exec i s = .next t) (hres : t.res = some r)
    (hok : r.status = .ok) {new : List Transaction} (hnew : t.log = s.log ++ new) (rf : RegFile) :
    t.ai = true ∧ t.cfg = s.cfg ∧ ∃ before, rfReplay s.cfg new rf = rfPutAll s.cfg a.toNat ds before := by
  obtain ⟨hai, p, resp, hp', hne, hfits, hlog⟩ := exec_bus_ok_log hb h hres hok
  obtain rfl : p = .write dev (a :: ds) := Option.some.inj (hp'.symm.trans hp)
  obtain rfl : resp = .ok := by
    cases resp with
    | ok => rfl
    | okData data => cases hfits
    | err e => exact absurd rfl (hne e)
  rw [hnew, List.append_assoc] at hlog
  rw [List.append_cancel_left hlog, rfReplay_write]
  exact ⟨hai, (exec_frame h).1, _, rfl⟩

/-- A bus command with the gate Set and its payload answered with success delivers what the answer's data give. -/
theorem exec_bus_answered {i : Instr} {s : State} {d : Vector Byte 64} (hb : i.isBus = true) (hpass : i.ChecksPass s.operands)
    (hset : s.ai = true) (hd : s.peek = .ok d) : ∃ u, exec i s = .next u ∧ u.res = some (busResult d i) := by
  obtain ⟨p, -, hexec⟩ := exec_bus hb hpass
  exact ⟨_, hexec, by rw [runRequest_set_ok p _ hset hd, State.deliver_res]⟩

/-- The command that reads back a pair of a channel: GETON or GETOFF. -/
def readBack : Which → Nat → Instr
  | .on => .geton
  | .off => .getoff

/-- A pair that holds a count in the fixture's registers is read back as that count, flag clear. -/
theorem readBack_of_holdsCount {s : State} {rf : RegFile} {k : Nat} {n : Word} (w : Which) (hc : s.cfg.WF) (hk : k ≤ 15)
    (hset : s.ai = true) (hn : n.toNat ≤ 4095) (hreg : HoldsCount rf (s.cfg.chBase.toNat + 4 * k + 2 * whichOffset w) n)
    (hpeek : s.peek = rfAnswer rf (addrOf s.cfg k w .low)) :
    ∃ u, exec (readBack w k) s = .next u ∧ u.res = some { status := .ok, rcount := some n, rfull := some false } := by
  have hb : (readBack w k).isBus = true := by cases w <;> rfl
  have hpass : (readBack w k).ChecksPass s.operands := by
    cases w <;> exact ⟨channel?_le (i := _) rfl (by omega), List.forall_mem_nil _⟩
  obtain ⟨u, hu, hres⟩ := exec_bus_answered hb hpass hset hpeek
  refine ⟨u, hu, hres.trans (congrArg some ?_)⟩
  obtain ⟨hcount, hflag⟩ := hreg.unpack hn
  rw [← addrOf_channel_low hc hk] at hcount hflag
  cases w <;> simp [readBack, busResult, hcount, hflag]

/-- Settles O51: the write reaches the four registers of channel `k`, by itself or by the broadcast, and they are read back. -/
theorem programmedCountsReadBack : Obligations.ProgrammedCountsReadBack := by
  intro s t rf ch k hc hk hch h hres new hnew
  have hp : (Instr.setonoff ch).payload? s.cfg s.operands = some (.write s.cfg.devAddr (addrOf s.cfg ch .on .low ::
    [lowByte s.operands.a, highByte s.operands.a, lowByte s.operands.b, highByte s.operands.b])) := rfl
  obtain ⟨hle, hcounts⟩ := checksPass_of_ok h hres rfl
  obtain ⟨hset, hcfg, before, hreplay⟩ := exec_write_ok rfl hp h hres rfl hnew rf
  have hreg {o : Nat} {d : Byte} (hd : [lowByte s.operands.a, highByte s.operands.a, lowByte s.operands.b,
      highByte s.operands.b][o]? = some d) : rfReplay s.cfg new rf (s.cfg.chBase.toNat + 4 * k + o) = d := by
    have ho : o < 4 := (List.getElem?_eq_some_iff.mp hd).1
    have hbase : (addrOf s.cfg ch .on .low).toNat = blockBase s.cfg ch := addrOf_toNat hc (hle ch rfl) _ _
    rw [hreplay, hbase]
    exact rfPutAll_of_reaches before hd fun i hi => reaches_block_iff hc hk hch (Nat.le_of_lt_succ hi) (Nat.le_of_lt_succ ho)
  rw [← hcfg] at hc hreg ⊢
  refine ⟨readBack_of_holdsCount .on hc hk hset (hcounts _ ?_) ⟨hreg (o := 0) rfl, hreg (o := 1) rfl⟩,
    readBack_of_holdsCount .off hc hk hset (hcounts _ ?_) ⟨hreg (o := 2) rfl, hreg (o := 3) rfl⟩⟩
  · exact List.mem_cons_self
  · exact List.mem_cons_of_mem _ List.mem_cons_self

/-! ### The bulk commands -/

/-- The elements of blocks of one length put in a row. -/
theorem getElem?_flatMap_of_length {α β : Type} {f : α → List β} {m j : Nat} (hf : ∀ a, (f a).length = m) (hj : j < m)
    (l : List α) : ∀ k : Nat, (l.flatMap f)[m * k + j]? = l[k]?.bind fun a => (f a)[j]? := by
  induction l with
  | nil => intro k; rfl
  | cons a l ih =>
    intro k
    rw [List.flatMap_cons]
    cases k with
    | zero => rw [List.getElem?_append_left (by rw [hf]; omega)]; simp
    | succ k =>
      have hindex : m * (k + 1) + j - m = m * k + j := by rw [Nat.mul_succ]; omega
      rw [List.getElem?_append_right (by rw [hf, Nat.mul_succ]; omega), hf, hindex, ih k, List.getElem?_cons_succ]

/-- Channel k's four bytes of the bulk payload. -/
theorem bulkFrame_getElem? (o : Operands) (k : Fin 16) {j : Nat} (hj : j < 4) :
    (bulkFrame o)[4 * k.val + j]? =
      [lowByte o.von[k], highByte o.von[k], lowByte o.voff[k], highByte o.voff[k]][j]? := by
  rw [bulkFrame, getElem?_flatMap_of_length (m := 4) (fun _ => rfl) hj]
  simp

/-- After SETALL ended with OK the gate is Set, and the fixture's channel blocks hold the 32 counts programmed. -/
theorem setall_ok {s t : State} (hc : s.cfg.WF) (h : exec .setall s = .next t) (hres : t.res = some { status := .ok })
    {new : List Transaction} (hnew : t.log = s.log ++ new) (rf : RegFile) :
    t.ai = true ∧ t.cfg = s.cfg ∧ ∀ k : Fin 16,
      ((s.operands.von[k]).toNat ≤ 4095 ∧ HoldsCount (rfReplay s.cfg new rf) (s.cfg.chBase.toNat + 4 * k) s.operands.von[k]) ∧
      ((s.operands.voff[k]).toNat ≤ 4095 ∧
        HoldsCount (rfReplay s.cfg new rf) (s.cfg.chBase.toNat + 4 * k + 2) s.operands.voff[k]) := by
  obtain ⟨-, hcounts⟩ := checksPass_of_ok h hres rfl
  obtain ⟨hset, hcfg, before, hreplay⟩ := exec_write_ok rfl rfl h hres rfl hnew rf
  refine ⟨hset, hcfg, fun k => ?_⟩
  have hreg {j : Nat} {d : Byte} (hd : [lowByte s.operands.von[k], highByte s.operands.von[k], lowByte s.operands.voff[k],
      highByte s.operands.voff[k]][j]? = some d) : rfReplay s.cfg new rf (s.cfg.chBase.toNat + 4 * k + j) = d := by
    have hj : j < 4 := (List.getElem?_eq_some_iff.mp hd).1
    rw [hreplay, Nat.add_assoc]
    refine rfPutAll_of_reaches before ((bulkFrame_getElem? s.operands k hj).trans hd) fun i hi => ?_
    rw [bulkFrame_length] at hi
    exact reaches_bulk_iff hc hi
  exact ⟨⟨hcounts _ (mem_counts_setall.mpr ⟨k, .inl rfl⟩), hreg (j := 0) rfl, hreg (j := 1) rfl⟩,
    hcounts _ (mem_counts_setall.mpr ⟨k, .inr rfl⟩), hreg (j := 2) rfl, hreg (j := 3) rfl⟩

/-- GETALL reads back the counts that the channel blocks of the fixture hold. -/
theorem getall_of_holdsCount {s : State} {rf : RegFile} {von voff : Vector Word 16} (hset : s.ai = true)
    (hon : ∀ k : Fin 16, (von[k]).toNat ≤ 4095 ∧ HoldsCount rf (s.cfg.chBase.toNat + 4 * k) von[k])
    (hoff : ∀ k : Fin 16, (voff[k]).toNat ≤ 4095 ∧ HoldsCount rf (s.cfg.chBase.toNat + 4 * k + 2) voff[k])
    (hpeek : s.peek = rfAnswer rf s.cfg.chBase) :
    ∃ u, exec .getall s = .next u ∧ u.res = some { status := .ok, ron := some von, roff := some voff } := by
  obtain ⟨u, hu, hres⟩ := exec_bus_answered (i := .getall) rfl ⟨nofun, List.forall_mem_nil _⟩ hset hpeek
  have hcounts {v : Vector Word 16} {o : Nat}
      (hv : ∀ k : Fin 16, (v[k]).toNat ≤ 4095 ∧ HoldsCount rf (s.cfg.chBase.toNat + 4 * k + o) v[k]) :
      (Vector.ofFn fun k : Fin 16 => countOf (rf (s.cfg.chBase.toNat + 4 * k + o)) (rf (s.cfg.chBase.toNat + 4 * k + o + 1))) =
        v := by
    refine Vector.ext fun k hk => ?_
    obtain ⟨hle, hreg⟩ := hv ⟨k, hk⟩
    rw [Vector.getElem_ofFn]
    exact (hreg.unpack hle).1
  refine ⟨u, hu, hres.trans (congrArg some ?_)⟩
  simp only [busResult, Vector.getElem_ofFn]
  exact congrArg₂ (fun on off => ({ status := .ok, ron := some on, roff := some off } : Result)) (hcounts (o := 0) hon)
    (hcounts hoff)

/-- Settles O52: SETALL leaves every channel's two counts in the fixture's registers, from where each command reads its own. -/
theorem bulkProgrammedCountsReadBack : Obligations.BulkProgrammedCountsReadBack := by
  intro s t rf hc h hres new hnew
  obtain ⟨hset, hcfg, hholds⟩ := setall_ok hc h hres hnew rf
  rw [← hcfg] at hc hholds ⊢
  refine ⟨getall_of_holdsCount hset (fun k => (hholds k).1) fun k => (hholds k).2, fun k => ?_, fun k => ?_⟩
  · obtain ⟨⟨hle, hreg⟩, -⟩ := hholds k
    exact readBack_of_holdsCount .on hc (Nat.le_of_lt_succ k.isLt) hset hle hreg
  · obtain ⟨-, hle, hreg⟩ := hholds k
    exact readBack_of_holdsCount .off hc (Nat.le_of_lt_succ k.isLt) hset hle hreg

end Sys2Proof.Machine
